-- ==== Sys2Proof/Word.lean ====
section
/-! DEFINITION. The word types of CORE (rules R6, R10, R51). -/

namespace Sys2Proof

/-- An unsigned 32-bit word, bit 31 most significant (R6, R10, R11). -/
abbrev Word := BitVec 32

/-- A byte, bit 7 most significant (R10, R51). -/
abbrev Byte := BitVec 8

/-- A block: exactly sixteen words, 64 bytes (R6, R29, R75). -/
abbrev Block := Vector Word 16

end Sys2Proof
end

