-- ==== Sys2Proof/Machine/Formats.lean ====
section
/-! DEFINITION. The data formats: padding, block assembly, digest bytes, hexadecimal text (R70 to R80), big-endian
throughout (R53). -/

namespace Sys2Proof.Machine

/-- The eight bytes of a 64-bit value, most significant first (R74). -/
def be64 (v : BitVec 64) : List Byte :=
  [v.extractLsb' 56 8, v.extractLsb' 48 8, v.extractLsb' 40 8, v.extractLsb' 32 8,
   v.extractLsb' 24 8, v.extractLsb' 16 8, v.extractLsb' 8 8, v.extractLsb' 0 8]

/-- The four bytes of a word, most significant first (R76). -/
def be32 (v : Word) : List Byte :=
  [v.extractLsb' 24 8, v.extractLsb' 16 8, v.extractLsb' 8 8, v.extractLsb' 0 8]

/-- A word from four bytes, the first most significant, each zero-extended (R76). -/
def wordBE (b0 b1 b2 b3 : Byte) : Word :=
  BitVec.ofNat 32 (b0.toNat * 2 ^ 24 + b1.toNat * 2 ^ 16 + b2.toNat * 2 ^ 8 + b3.toNat)

/-- The padding's delimiter, a `1` bit and seven `0` bits (R6, R71). -/
def delimiter : Byte := 0x80#8

/-- The number of zero bytes, `(55 - n) mod 64` in `0..63` also for a negative left operand (R72). -/
def zeroFill (n : Nat) : Nat := ((55 - (n : Int)) % 64).toNat

/-- The bit length `8*n` as the 64-bit counter `L` (R27, R121). DESIGN CHOICE, unsafe (log 29): for `n` of 2^61 or more, which
CREATE never admits, it is `8*n` modulo 2^64. -/
def bitLength (n : Nat) : BitVec 64 := BitVec.ofNat 64 (8 * n)

/-- The padded message: message, delimiter, `z` zero bytes, length field (R71, R124). -/
def paddedBytes (message : List Byte) (z : Nat) (l : BitVec 64) : List Byte :=
  message ++ [delimiter] ++ List.replicate z 0x00#8 ++ be64 l

/-- Bytes grouped four at a time into big-endian words (R75, R130, R180). -/
def wordsBE : List Byte → List Word
  | b0 :: b1 :: b2 :: b3 :: rest => wordBE b0 b1 b2 b3 :: wordsBE rest
  | _ => []

/-- Words grouped sixteen at a time into blocks (R75, R130, R180). -/
def chunks16 : List Word → List Block
  | w0 :: w1 :: w2 :: w3 :: w4 :: w5 :: w6 :: w7 :: w8 :: w9 :: w10 :: w11 :: w12 :: w13 :: w14 :: w15 :: rest =>
    #v[w0, w1, w2, w3, w4, w5, w6, w7, w8, w9, w10, w11, w12, w13, w14, w15] :: chunks16 rest
  | _ => []

/-- The blocks of a padded message (R75, R130). -/
def parseBlocks (p : List Byte) : List Block := chunks16 (wordsBE p)

/-- DIGESTB: the eight digest words as 32 big-endian bytes (R78). -/
def digestBytes (h : Vector Word 8) : Vector Byte 32 :=
  ⟨(be32 h[0] ++ be32 h[1] ++ be32 h[2] ++ be32 h[3] ++ be32 h[4] ++ be32 h[5] ++ be32 h[6] ++ be32 h[7]).toArray, rfl⟩

/-- DIGEST[255:0]: byte 0 in bits 255:248 (R79). -/
def digestNumber (d : Vector Byte 32) : BitVec 256 :=
  d.toList.foldl (fun acc b => acc <<< 8 ||| b.setWidth 256) 0#256

/-- The ASCII character of a nibble, lowercase (R9, R80). PRESUMED, unsafe (log 16): the spec's general knowledge. -/
def hexDigit (v : BitVec 4) : Byte :=
  if v.toNat ≤ 9 then 0x30#8 + v.setWidth 8 else 0x61#8 + (v.setWidth 8 - 10#8)

/-- The two characters of a byte, high nibble first (R80). -/
def hexByte (b : Byte) : List Byte := [hexDigit (b.extractLsb' 4 4), hexDigit (b.extractLsb' 0 4)]

theorem hexText_size (d : Vector Byte 32) : (d.toList.flatMap hexByte).toArray.size = 64 := by
  simp [List.length_flatMap, hexByte]

/-- HEX: 64 characters, two for each byte of DIGESTB in order (R80, R160). -/
def hexText (d : Vector Byte 32) : Vector Byte 64 := ⟨(d.toList.flatMap hexByte).toArray, hexText_size d⟩

end Sys2Proof.Machine
end

