-- ==== Sys2Proof/Config.lean ====
section
/-! DEFINITION. What an instance fixes: the bound on a message's length and the type of the open parameter MSG_CAP (R7, R8).
The machine has no value its spec leaves free, so this file holds no opaque constant.
The two constant tables stand in Machine/Tables.lean. -/

namespace Sys2Proof.Config

/-- MAX_MSG_BYTES = 2^61 - 1, the greatest `n` with `8*n <= 2^64 - 1` (R7). -/
abbrev maxMsgBytes : Nat := 2 ^ 61 - 1

/-- The range of the open parameter MSG_CAP: `0 <= MSG_CAP <= MAX_MSG_BYTES` (R8, D10). -/
abbrev Cap := Fin (2 ^ 61)

/-- The default of MSG_CAP: no limit beyond MAX_MSG_BYTES (R8). -/
abbrev defaultCap : Cap := ⟨2 ^ 61 - 1, by decide⟩

end Sys2Proof.Config
end

