-- ==== Sys2Proof/Syntax.lean ====
section
/-! DEFINITION. The thirteen operations of the opcode table and the twelve phases (R30, R84, R85). -/

namespace Sys2Proof

/-- The operations, one constructor per row of the opcode table (R85).
The message bytes of HASH are its operand in memory (`MSG`, R50, R81), so only LENGTH stands here. -/
inductive Instr where
  /-- HASH, host command `01`, with its operand LENGTH (R81, R170). -/
  | hash (length : Nat)
  /-- TAKE, host command `10` (R81, R176). -/
  | take
  /-- CREATE, phase code `0000` (R120). -/
  | create
  /-- PAD, phase code `0001` (R124). -/
  | pad
  /-- PARSE, phase code `0010` (R130). -/
  | parse
  /-- HINIT, phase code `0011` (R140). -/
  | hinit
  /-- SCHLD, phase code `0100` (R144). -/
  | schld
  /-- SCHEXP, phase code `0101` (R146). -/
  | schexp
  /-- WINIT, phase code `0110` (R150). -/
  | winit
  /-- ROUND, phase code `0111` (R152). -/
  | round
  /-- UPDATE, phase code `1000` (R156). -/
  | update
  /-- SERIALIZE, phase code `1001` (R160). -/
  | serialize
  /-- DISCARD, phase code `101f`: `f` is false from phase DONE, true from phase FAULT (R85, R177). -/
  | discard (f : Bool)
  deriving DecidableEq, Repr

/-- The twelve phases of the sequencer (R30). -/
inductive Phase where
  | idle | pad | parse | hinit | schld | schexp | winit | round | update | serialize | done | fault
  deriving DecidableEq, Repr

end Sys2Proof
end

