-- ==== Sys2Proof/WellFormed.lean ====
section
/-! DEFINITION. When an operation is one the encodings can carry. -/

namespace Sys2Proof

/-- LENGTH is "an unsigned 64-bit number" (R81); no other operation has an operand that could be out of range. -/
def Instr.wf : Instr → Bool
  | .hash length => decide (length < 2 ^ 64)
  | .take => true
  | .create => true
  | .pad => true
  | .parse => true
  | .hinit => true
  | .schld => true
  | .schexp => true
  | .winit => true
  | .round => true
  | .update => true
  | .serialize => true
  | .discard _ => true

end Sys2Proof
end

