-- ==== Sys2Proof/Decode.lean ====
section
/-! DEFINITION. The operation codes: the decoder, total on every code, and the encoder (R81, R83, R84, R86, R90). -/

namespace Sys2Proof

/-- The code of a phase, `phase[3:0]` (R84). -/
def Phase.code : Phase → BitVec 4
  | .idle => 0b0000#4
  | .pad => 0b0001#4
  | .parse => 0b0010#4
  | .hinit => 0b0011#4
  | .schld => 0b0100#4
  | .schexp => 0b0101#4
  | .winit => 0b0110#4
  | .round => 0b0111#4
  | .update => 0b1000#4
  | .serialize => 0b1001#4
  | .done => 0b1010#4
  | .fault => 0b1011#4

/-- An encoded operation. The two formats are separate code spaces (R83, R90):
format H is a 2-bit host command with the 64-bit operand LENGTH, format U a 4-bit phase code. -/
inductive Encoded where
  | h (cmd : BitVec 2) (length : BitVec 64)
  | u (code : BitVec 4)
  deriving DecidableEq, Repr

/-- Why a code is no operation (R81, R86). -/
inductive DecodeError where
  /-- Host command `00`: no command this transaction. -/
  | noCommand
  /-- Host command `11`: reserved, invalid. -/
  | reservedCommand
  /-- Phase codes `1100` to `1111`: reserved. -/
  | reservedPhase (code : BitVec 4)
  deriving DecidableEq, Repr

/-- Format H: the host command `cmd` with its operand LENGTH (R81). -/
def decodeCommand (cmd : BitVec 2) (length : BitVec 64) : Except DecodeError Instr :=
  if cmd = 0b01#2 then .ok (.hash length.toNat)
  else if cmd = 0b10#2 then .ok .take
  else if cmd = 0b00#2 then .error .noCommand
  else .error .reservedCommand

/-- Format U: the micro-operation a phase code selects (R30, R83, R84, R85). -/
def decodePhase (code : BitVec 4) : Except DecodeError Instr :=
  if code = 0b0000#4 then .ok .create
  else if code = 0b0001#4 then .ok .pad
  else if code = 0b0010#4 then .ok .parse
  else if code = 0b0011#4 then .ok .hinit
  else if code = 0b0100#4 then .ok .schld
  else if code = 0b0101#4 then .ok .schexp
  else if code = 0b0110#4 then .ok .winit
  else if code = 0b0111#4 then .ok .round
  else if code = 0b1000#4 then .ok .update
  else if code = 0b1001#4 then .ok .serialize
  else if code = 0b1010#4 then .ok (.discard false)
  else if code = 0b1011#4 then .ok (.discard true)
  else .error (.reservedPhase code)

/-- The decoder over both code spaces. -/
def decode : Encoded → Except DecodeError Instr
  | .h cmd length => decodeCommand cmd length
  | .u code => decodePhase code

/-- The encoder, from the tables of R81 and R85; the unused LENGTH of TAKE is zero. -/
def encode : Instr → Encoded
  | .hash length => .h 0b01#2 (BitVec.ofNat 64 length)
  | .take => .h 0b10#2 0#64
  | .create => .u 0b0000#4
  | .pad => .u 0b0001#4
  | .parse => .u 0b0010#4
  | .hinit => .u 0b0011#4
  | .schld => .u 0b0100#4
  | .schexp => .u 0b0101#4
  | .winit => .u 0b0110#4
  | .round => .u 0b0111#4
  | .update => .u 0b1000#4
  | .serialize => .u 0b1001#4
  | .discard f => .u (0b101#3 ++ BitVec.ofBool f)

/-- A word of the opcode table as an encoded operation.
DESIGN CHOICE, safe (log 11): the table's `width` tells its two code spaces apart (R90), 2 bits for format H and 4 for
format U, so up to two bits are a host command with LENGTH zero and more are a phase code. -/
def tableWord (nbits w : Nat) : Option Encoded :=
  if nbits ≤ 2 then
    if w < 4 then some (.h (BitVec.ofNat 2 w) 0#64) else none
  else
    if w < 16 then some (.u (BitVec.ofNat 4 w)) else none

/-- What the decoder reads from a word of the opcode table. -/
def decodeTableWord (nbits w : Nat) : Option Instr :=
  match tableWord nbits w with
  | some c => (decode c).toOption
  | none => none

end Sys2Proof
end

