-- ==== Sys2Proof/Machine/State.lean ====
section
/-! DEFINITION. The state of CORE and of what HOST shows it, as plain data, and the reasons a step can stop. -/

namespace Sys2Proof.Machine

/-- The eight working registers (R22). -/
structure Working where
  a : Word
  b : Word
  c : Word
  d : Word
  e : Word
  f : Word
  g : Word
  h : Word
  deriving DecidableEq, Repr

/-- A pending HASH: its operand LENGTH; its message bytes live in HOST's space `MSG` (R38, R170). -/
structure Request where
  length : BitVec 64
  deriving DecidableEq, Repr

/-- HOST's message space `MSG` (R50): the cells HOST has written, addresses strictly rising.
A cell that is not listed holds no byte (log 3). -/
abbrev Memory := List Host.Cell

/-- What HOST keeps from a TAKE (R176): the text and the 256-bit digest, or the fault's code. -/
inductive TakeResult where
  | ok (hex : Vector Byte 64) (digest : BitVec 256)
  | error (code : BitVec 4)
  deriving DecidableEq, Repr

/-- What HOST and the platform do to CORE, one entry each (R81, R50, R210). -/
inductive Input where
  /-- A transaction on the command port: the 2-bit code and LENGTH (R81). -/
  | command (cmd : BitVec 2) (length : BitVec 64)
  /-- HOST writes one cell of `MSG`, whose indices are below 2^61 (R50). -/
  | store (index : BitVec 61) (byte : Byte)
  /-- The reset input (R210). -/
  | reset
  deriving DecidableEq, Repr

/-- The names of the elements a step can read (R44). -/
inductive Element where
  | work | h | w (k : Nat) | mbuf | n | l | pbuf | blk (k : Nat) | blocks | nblk | i | t | digestb | hex
  | k (k : Nat) | msg (k : Nat)
  deriving DecidableEq, Repr

/-- The state. `none` in a call-scoped element is the spec's own **novalue** (R21), not a missing reset value. -/
structure State where
  /-- `phase[3:0]`, CORE's program counter (R30, R84). -/
  phase : BitVec 4
  /-- Block index (R31). -/
  i : Option Nat
  /-- Step index (R32). -/
  t : Option Nat
  /-- ERRCODE (R34). -/
  errcode : BitVec 4
  /-- The working registers `a..h` (R22). -/
  work : Option Working
  /-- The running digest `H[0..7]` (R23). -/
  h : Option (Vector Word 8)
  /-- The message schedule `W[0..63]`, each word with a value or novalue (R24). -/
  w : Vector (Option Word) 64
  /-- MBUF, the message copy (R26). -/
  mbuf : Option (List Byte)
  /-- The message's length `n` in bytes (R26). -/
  n : Option Nat
  /-- The bit length `L` (R27). -/
  l : Option (BitVec 64)
  /-- PBUF, the padded bytes (R28). -/
  pbuf : Option (List Byte)
  /-- The number `z` of zero bytes PAD appended (R28). -/
  z : Option Nat
  /-- The block sequence BLK (R29). -/
  blk : Option (List Block)
  /-- The block count `N` (R29). -/
  nblk : Option Nat
  /-- DIGESTB, the digest's 32 bytes (R37). -/
  digestb : Option (Vector Byte 32)
  /-- HEX, the digest's 64 characters (R37). -/
  hex : Option (Vector Byte 64)
  /-- REQ (R38). -/
  req : Option Request
  /-- TAKEQ: whether a TAKE is pending (R38). -/
  takeq : Bool
  /-- HOST's message space MSG (R50). -/
  msg : Memory
  /-- What HOST has kept from its TAKEs, oldest first (R176; log 13). -/
  results : List TakeResult
  /-- The instance's parameter MSG_CAP, which no step writes (R8, R39; log 4). -/
  msgCap : Config.Cap
  /-- The model's own: what HOST and the platform do next, oldest first (log 1). -/
  inputs : List Input
  deriving DecidableEq, Repr

/-- Why the machine stops with a fault. The two hardware faults of R190 are none of these: they are next states. -/
inductive Fault where
  /-- A step read an element that holds novalue (R196). Raised by every meaning that reads a call-scoped element.
  Safe: the machine stops where hardware would go on with whatever the element holds. -/
  | uninitRead (e : Element)
  /-- `phase` holds one of the reserved codes 12 to 15 (R197). Raised by the sequencer. Safe: no rule produces such a code. -/
  | illegalPhase (code : BitVec 4)
  /-- An index outside its file, table or message space (log 9). Raised by CREATE for a message cell HOST never supplied
  (R186) and, in states no run reaches, by SCHLD, SCHEXP and ROUND. Safe: no value is made up. -/
  | noSuchElement (e : Element)
  deriving DecidableEq, Repr

/-- Why a step has no meaning. -/
inductive Refusal where
  /-- An instruction without a meaning yet; no arm of `exec` answers so. Safe. -/
  | notModelled (mnemonic : String)
  /-- Host command `11`, reserved: "a model refuses it" (R86). Raised by the sequencer. Safe. -/
  | reservedCommand
  deriving DecidableEq, Repr

/-- What the sequencer does next: run an operation, finish a step of HOST or the platform, or stop (R172). -/
inductive Move where
  | run (i : Instr) (s : State)
  | outside (s : State)
  | stop (f : Fault)
  | refuse (r : Refusal)
  deriving DecidableEq, Repr

/-- The state after reset (R42, R210). MSG, `results`, `msgCap` and `inputs` are not CORE's to reset (R214): here they
hold what an instance starts with (log 1, 3, 4, 13). -/
def State.reset : State where
  phase := 0b0000#4
  i := none
  t := none
  errcode := 0#4
  work := none
  h := none
  w := Vector.replicate 64 none
  mbuf := none
  n := none
  l := none
  pbuf := none
  z := none
  blk := none
  nblk := none
  digestb := none
  hex := none
  req := none
  takeq := false
  msg := []
  results := []
  msgCap := Config.defaultCap
  inputs := []

end Sys2Proof.Machine
end

