-- ==== Sys2Proof/Machine/Ops.lean ====
section
/-! DEFINITION. The named operations over the state: reading call-scoped elements, the message space, the phase, fault
entry and return, reset. -/

namespace Sys2Proof.Machine

/-- Reads a call-scoped element: novalue is the model fault UninitRead (R21, R196). -/
def need {α : Type} (e : Element) : Option α → Except Fault α
  | some x => .ok x
  | none => .error (.uninitRead e)

/-- A step's result as an outcome: a new state or a model fault. -/
def outcomeOf : Except Fault State → Host.Outcome State Fault Refusal
  | .ok s => .next s
  | .error f => .fault f

/-- Performs an operation where it is enabled.
DESIGN CHOICE, safe (log 7): an operation that is not enabled is not performed and its agent waits, so the state stays
as it is (R171 "none", R170 and R176 "HOST waits"). -/
def whenEnabled (enabled : Bool) (s : State) (act : Except Fault State) : Host.Outcome State Fault Refusal :=
  if enabled then outcomeOf act else .next s

/-- Whether `phase` is `p` (R30). -/
def State.inPhase (s : State) (p : Phase) : Bool := decide (s.phase = p.code)

/-- `phase <- p` (R12, R30). -/
def State.goto (s : State) (p : Phase) : State := { s with phase := p.code }

/-! ### The message space MSG (R50) -/

/-- The canonical form of a memory: indices strictly rising and below 2^61.
An unlisted cell holds no byte (log 3), so no entry can equal what it reads as. -/
abbrev Memory.wf (m : Memory) : Prop :=
  m.Pairwise (fun c d => c.1 < d.1) ∧ ∀ c ∈ m, c.1 < 2 ^ 61

/-- The byte at an index, if HOST has written one (R50, R58). -/
def Memory.read : Memory → Nat → Option Byte
  | [], _ => none
  | (k, v) :: rest, a => if k = a then some v else Memory.read rest a

/-- Writes one byte, keeping the canonical form. -/
def Memory.write : Memory → Nat → Byte → Memory
  | [], a, b => [(a, b)]
  | (k, v) :: rest, a, b =>
    if a < k then (a, b) :: (k, v) :: rest
    else if a = k then (a, b) :: rest
    else (k, v) :: Memory.write rest a b

/-- `MemRead(MSG + k, n)` (R12): the `n` bytes from index `k` in ascending order; a cell that holds no byte stops the
machine (log 3). -/
def Memory.readBytes (m : Memory) : Nat → Nat → Except Fault (List Byte)
  | _, 0 => .ok []
  | k, n + 1 =>
    match m.read k with
    | none => .error (.noSuchElement (.msg k))
    | some b =>
      match Memory.readBytes m (k + 1) n with
      | .ok bs => .ok (b :: bs)
      | .error f => .error f

/-! ### What enables HOST's commands and CORE's waiting phases -/

/-- HASH is enabled when REQ is empty (R170). -/
def State.hashEnabled (s : State) : Bool := s.req.isNone

/-- TAKE is enabled when TAKEQ is empty and the phase is DONE or FAULT (R176). -/
def State.takeEnabled (s : State) : Bool := !s.takeq && (s.inPhase .done || s.inPhase .fault)

/-- DISCARD is enabled in DONE (`f` false) or FAULT (`f` true) when TAKEQ holds TAKE (R177). -/
def State.discardEnabled (s : State) (f : Bool) : Bool := s.takeq && s.inPhase (if f then .fault else .done)

/-! ### Faults, the end of a call, reset -/

/-- Fault entry: the request is consumed, ERRCODE names the cause, the phase is FAULT, nothing else changes (R194). -/
def State.raiseFault (s : State) (code : BitVec 4) : State :=
  { s with req := none, errcode := code }.goto .fault

/-- Every call-scoped element, `i` and `t` become novalue (R177, R210). -/
def State.clearCall (s : State) : State :=
  { s with
    mbuf := none, n := none, l := none, pbuf := none, z := none, blk := none, nblk := none
    w := Vector.replicate 64 none, work := none, h := none
    digestb := none, hex := none, i := none, t := none }

/-- The return from DONE and from FAULT: the whole effect of DISCARD; a request held in REQ survives (R177, R195). -/
def State.discardCall (s : State) : State :=
  { s.clearCall with takeq := false, errcode := 0#4 }.goto .idle

/-- The reset input: CORE's state as after reset, what is HOST's or the instance's untouched (R210, R214). -/
def State.applyReset (s : State) : State :=
  { s.clearCall with takeq := false, errcode := 0#4, req := none }.goto .idle

end Sys2Proof.Machine
end

