-- ==== Sys2Proof/Machine/Operands.lean ====
section
/-! DEFINITION. The implicit operands of the micro-operations (R83, R88) and the ports HOST reads (R82, R175). -/

namespace Sys2Proof.Machine

/-- Reads `W[k]`: novalue is UninitRead (R196), an index past 63 names no register (log 9). -/
def State.readW (s : State) (k : Nat) : Except Fault Word :=
  match s.w[k]? with
  | some x => need (.w k) x
  | none => .error (.noSuchElement (.w k))

/-- `W[k] <- v`. -/
def State.writeW (s : State) (k : Nat) (v : Word) : State :=
  { s with w := s.w.setIfInBounds k (some v) }

/-- Reads `BLK[k]` (R29): an index past the last block names no block (log 9). -/
def State.readBlk (s : State) (k : Nat) : Except Fault Block :=
  match need .blocks s.blk with
  | .error f => .error f
  | .ok blocks =>
    match blocks[k]? with
    | some b => .ok b
    | none => .error (.noSuchElement (.blk k))

/-- Reads `K[k]` (R35): an index past 63 names no table word (log 9). -/
def readK (k : Nat) : Except Fault Word :=
  match kTable[k]? with
  | some x => .ok x
  | none => .error (.noSuchElement (.k k))

/-- The schedule after SCHLD: the block's sixteen words, then novalue (R144). -/
def loadSchedule (b : Block) : Vector (Option Word) 64 :=
  ⟨(b.toList.map some ++ List.replicate 48 none).toArray, by simp⟩

/-- DIGEST[255:0] as HOST reads it: a view of DIGESTB (R37, R79, R82). -/
def State.digestPort (s : State) : Option (BitVec 256) := s.digestb.map digestNumber

end Sys2Proof.Machine
end

