-- ==== Sys2Proof/Machine/WordFns.lean ====
section
/-! DEFINITION. The word functions inside SCHEXP and ROUND (R100 to R109, R113). -/

namespace Sys2Proof.Machine

/-- Addition modulo 2^32, the carry discarded (R100). -/
def add32 (x y : Word) : Word :=
  BitVec.ofNat 32 ((x.toNat + y.toNat) % 2 ^ 32)

/-- Logical right shift by a constant (R102). -/
def shr (x : Word) (n : Nat) : Word := x >>> n

/-- Logical left shift by a constant, bits past bit 31 lost (R102). -/
def shl (x : Word) (n : Nat) : Word := x <<< n

/-- Rotation right, defined "for `0 < n < 32`" only (R103).
DESIGN CHOICE, safe (log 18): outside that range it is no function at all, so a caller proves the bound. -/
def rotr (x : Word) (n : Nat) (_bound : 0 < n ∧ n < 32 := by decide) : Word :=
  shr x n ||| shl x (32 - n)

/-- Bitwise selection (R104). -/
def ch (x y z : Word) : Word := (x &&& y) ^^^ (~~~x &&& z)

/-- Bitwise majority (R105). -/
def maj (x y z : Word) : Word := (x &&& y) ^^^ (x &&& z) ^^^ (y &&& z)

/-- Capital sigma zero (R106). -/
def bsig0 (x : Word) : Word := rotr x 2 ^^^ rotr x 13 ^^^ rotr x 22

/-- Capital sigma one (R107). -/
def bsig1 (x : Word) : Word := rotr x 6 ^^^ rotr x 11 ^^^ rotr x 25

/-- Small sigma zero; the third term is a shift (R108). -/
def ssig0 (x : Word) : Word := rotr x 7 ^^^ rotr x 18 ^^^ shr x 3

/-- Small sigma one; the third term is a shift (R109). -/
def ssig1 (x : Word) : Word := rotr x 17 ^^^ rotr x 19 ^^^ shr x 10

/-- One word of the message schedule from the four earlier words it reads (R146). -/
def scheduleWord (w2 w7 w15 w16 : Word) : Word :=
  add32 (add32 (add32 (ssig1 w2) w7) (ssig0 w15)) w16

end Sys2Proof.Machine
end

