-- ==== Sys2Proof/Machine/Compressor.lean ====
section
/-! DEFINITION. The compressor unit CMP: HINIT, SCHLD, SCHEXP, WINIT, ROUND, UPDATE, SERIALIZE (R140 to R160). -/

namespace Sys2Proof.Machine

/-- HINIT: `H <- IV`, `i <- 0` (R140). -/
def execHinit (s : State) : Host.Outcome State Fault Refusal :=
  whenEnabled (s.inPhase .hinit) s
    (.ok ({ s with h := some iv, i := some 0 }.goto .schld))

/-- SCHLD: every `W[j]` becomes novalue, then `W[0..15]` take block `i`; `t <- 16` (R144).
DESIGN CHOICE, safe (log 30): with several novalue, UninitRead names the first of i, BLK. -/
def execSchld (s : State) : Host.Outcome State Fault Refusal :=
  whenEnabled (s.inPhase .schld) s do
    let i ← need .i s.i
    let b ← s.readBlk i
    .ok ({ s with w := loadSchedule b, t := some 16 }.goto .schexp)

/-- The word SCHEXP writes to `W[t]`, for `16 <= t <= 63` (R146); other `t` name no schedule word (log 9).
DESIGN CHOICE, safe (log 30): with several novalue, UninitRead names the first of W[t-2], W[t-7], W[t-15], W[t-16]; an index outside its file
stops before any of them is read. -/
def State.expandWord (s : State) (t : Nat) : Except Fault Word :=
  if 16 ≤ t ∧ t ≤ 63 then do
    let w2 ← s.readW (t - 2)
    let w7 ← s.readW (t - 7)
    let w15 ← s.readW (t - 15)
    let w16 ← s.readW (t - 16)
    .ok (scheduleWord w2 w7 w15 w16)
  else .error (.noSuchElement (.w t))

/-- SCHEXP: one schedule word; after `t = 63` the phase is WINIT and `t` stays (R146, R171). -/
def execSchexp (s : State) : Host.Outcome State Fault Refusal :=
  whenEnabled (s.inPhase .schexp) s do
    let t ← need .t s.t
    let x ← s.expandWord t
    let s' := s.writeW t x
    .ok (if t = 63 then s'.goto .winit else { s' with t := some (t + 1) })

/-- The working registers loaded from the running digest (R150). -/
def workingOf (h : Vector Word 8) : Working :=
  ⟨h[0], h[1], h[2], h[3], h[4], h[5], h[6], h[7]⟩

/-- WINIT: `a..h <- H[0..7]`, `t <- 0` (R150). -/
def execWinit (s : State) : Host.Outcome State Fault Refusal :=
  whenEnabled (s.inPhase .winit) s do
    let h ← need .h s.h
    .ok ({ s with work := some (workingOf h), t := some 0 }.goto .round)

/-- The eight new registers of a round, all from the old ones; T1 and T2 are local (R25, R152, R220). -/
def roundStep (r : Working) (k w : Word) : Working :=
  let t1 := add32 (add32 (add32 (add32 r.h (bsig1 r.e)) (ch r.e r.f r.g)) k) w
  let t2 := add32 (bsig0 r.a) (maj r.a r.b r.c)
  { a := add32 t1 t2, b := r.a, c := r.b, d := r.c, e := add32 r.d t1, f := r.e, g := r.f, h := r.g }

/-- ROUND: one compression round; after `t = 63` the phase is UPDATE and `t` stays (R152, R171).
DESIGN CHOICE, safe (log 30): with several novalue, UninitRead names the first of t, a..h, W[t]; K[t] is read before W[t]. -/
def execRound (s : State) : Host.Outcome State Fault Refusal :=
  whenEnabled (s.inPhase .round) s do
    let t ← need .t s.t
    let r ← need .work s.work
    let k ← readK t
    let w ← s.readW t
    let s' := { s with work := some (roundStep r k w) }
    .ok (if t = 63 then s'.goto .update else { s' with t := some (t + 1) })

/-- The running digest with the working registers added in (R156). -/
def addWorking (h : Vector Word 8) (r : Working) : Vector Word 8 :=
  #v[add32 h[0] r.a, add32 h[1] r.b, add32 h[2] r.c, add32 h[3] r.d,
     add32 h[4] r.e, add32 h[5] r.f, add32 h[6] r.g, add32 h[7] r.h]

/-- UPDATE: `H` plus the working registers, `i <- i + 1`, and SERIALIZE after the last block, else SCHLD (R156).
DESIGN CHOICE, safe (log 30): with several novalue, UninitRead names the first of H, a..h, i, N. -/
def execUpdate (s : State) : Host.Outcome State Fault Refusal :=
  whenEnabled (s.inPhase .update) s do
    let h ← need .h s.h
    let r ← need .work s.work
    let i ← need .i s.i
    let blocks ← need .nblk s.nblk
    .ok ({ s with h := some (addWorking h r), i := some (i + 1) }.goto
      (if i + 1 = blocks then .serialize else .schld))

/-- SERIALIZE: DIGESTB and HEX from `H` (R160). -/
def execSerialize (s : State) : Host.Outcome State Fault Refusal :=
  whenEnabled (s.inPhase .serialize) s do
    let h ← need .h s.h
    .ok ({ s with digestb := some (digestBytes h), hex := some (hexText (digestBytes h)) }.goto .done)

end Sys2Proof.Machine
end

