-- ==== Sys2Proof/Machine/Flags.lean ====
section
/-! DEFINITION. The status flags, pure functions of `phase` (R33, R82), and the codes of ERRCODE (R34, R190). -/

namespace Sys2Proof.Machine

/-- BUSY: the phase is neither IDLE, DONE nor FAULT (R33). -/
def State.busy (s : State) : Bool := !(s.inPhase .idle || s.inPhase .done || s.inPhase .fault)

/-- DONE (R33). -/
def State.done (s : State) : Bool := s.inPhase .done

/-- ERR (R33). -/
def State.err (s : State) : Bool := s.inPhase .fault

/-- ERRCODE 1, LEN_OVERFLOW (R190, R191). -/
def errLenOverflow : BitVec 4 := 1#4

/-- ERRCODE 2, CAPACITY (R190, R192). -/
def errCapacity : BitVec 4 := 2#4

/-- A run is final: IDLE with REQ and TAKEQ empty (R178). -/
def State.final (s : State) : Bool := s.inPhase .idle && s.req.isNone && !s.takeq

end Sys2Proof.Machine
end

