-- ==== Sys2Proof/Machine/HostCommands.lean ====
section
/-! DEFINITION. The two host commands HASH and TAKE (R170, R176). -/

namespace Sys2Proof.Machine

/-- HASH: with REQ empty the request is written to REQ, its message standing in MSG; else HOST waits (R170). -/
def execHash (length : Nat) (s : State) : Host.Outcome State Fault Refusal :=
  whenEnabled s.hashEnabled s (.ok { s with req := some ⟨BitVec.ofNat 64 length⟩ })

/-- The result HOST takes: in DONE the text and the digest, in FAULT the cause (R176).
DESIGN CHOICE, safe (log 30): with several novalue, UninitRead names the first of HEX, DIGESTB. -/
def State.takeResult (s : State) : Except Fault TakeResult :=
  if s.done then do
    let text ← need .hex s.hex
    let bytes ← need .digestb s.digestb
    .ok (.ok text (digestNumber bytes))
  else .ok (.error s.errcode)

/-- TAKE: in DONE or FAULT with TAKEQ empty, HOST keeps the result and TAKEQ holds TAKE; else HOST waits (R176). -/
def execTake (s : State) : Host.Outcome State Fault Refusal :=
  whenEnabled s.takeEnabled s do
    let r ← s.takeResult
    .ok { s with results := s.results ++ [r], takeq := true }

end Sys2Proof.Machine
end

