-- ==== Sys2Proof/Machine/Preprocessor.lean ====
section
/-! DEFINITION. The preprocessor unit PRE: CREATE, PAD, PARSE (R120, R124, R130). -/

namespace Sys2Proof.Machine

/-- CREATE with a pending request: the two checks in their order, then the copy of the message (R120, R121, R190). -/
def State.accept (s : State) (r : Request) : Except Fault State :=
  let n := r.length.toNat
  if n > Config.maxMsgBytes then .ok (s.raiseFault errLenOverflow)
  else if n > s.msgCap.val then .ok (s.raiseFault errCapacity)
  else do
    let m ← s.msg.readBytes 0 n
    .ok ({ s with req := none, n := some n, mbuf := some m, l := some (bitLength n) }.goto .pad)

/-- CREATE: enabled in IDLE when REQ holds a request; CORE waits while REQ is empty (R120, R171). -/
def execCreate (s : State) : Host.Outcome State Fault Refusal :=
  match s.req with
  | some r => whenEnabled (s.inPhase .idle) s (s.accept r)
  | none => .next s

/-- PAD: the padded message and the zero count (R124).
DESIGN CHOICE, safe (log 30): with several novalue, UninitRead names the first of n, MBUF, L. -/
def execPad (s : State) : Host.Outcome State Fault Refusal :=
  whenEnabled (s.inPhase .pad) s do
    let n ← need .n s.n
    let m ← need .mbuf s.mbuf
    let l ← need .l s.l
    let z := zeroFill n
    .ok ({ s with z := some z, pbuf := some (paddedBytes m z l) }.goto .parse)

/-- PARSE: the block count and the blocks (R130). -/
def execParse (s : State) : Host.Outcome State Fault Refusal :=
  whenEnabled (s.inPhase .parse) s do
    let p ← need .pbuf s.pbuf
    .ok ({ s with nblk := some (p.length / 64), blk := some (parseBlocks p) }.goto .hinit)

end Sys2Proof.Machine
end

