-- ==== Sys2Proof/Machine/Sequencer.lean ====
section
/-! DEFINITION. The sequencer: DISCARD (R177), fetching the micro-operation `phase` selects (R30, R83), and whose turn it
is (R172, R210). -/

namespace Sys2Proof.Machine

/-- DISCARD: the end of a call (R177). -/
def execDiscard (f : Bool) (s : State) : Host.Outcome State Fault Refusal :=
  whenEnabled (s.discardEnabled f) s (.ok s.discardCall)

/-- Whether a host command can be performed now; a micro-operation is no host command (R170, R176). -/
def State.hostEnabled (s : State) : Instr → Bool
  | .hash _ => s.hashEnabled
  | .take => s.takeEnabled
  | .create => false
  | .pad => false
  | .parse => false
  | .hinit => false
  | .schld => false
  | .schexp => false
  | .winit => false
  | .round => false
  | .update => false
  | .serialize => false
  | .discard _ => false

/-- CORE's turn: the micro-operation `phase` selects (R30, R83), or the model fault IllegalPhase (R197). -/
def coreMove (s : State) : Move :=
  match decodePhase s.phase with
  | .ok i => .run i s
  | .error _ => .stop (.illegalPhase s.phase)

/-- The next step. DESIGN CHOICE, safe (log 1): the oldest entry of `inputs` is what HOST or the platform does next, and
CORE has the turn when there is none, when it is the transaction without a command (log 20), or when HOST waits because
its command is not enabled (R170, R176). -/
def nextMove (s : State) : Move :=
  match s.inputs with
  | [] => coreMove s
  | .command cmd length :: rest =>
    match decodeCommand cmd length with
    | .ok i => if s.hostEnabled i then .run i { s with inputs := rest } else coreMove s
    | .error .noCommand => coreMove { s with inputs := rest }
    | .error .reservedCommand => .refuse .reservedCommand
    | .error (.reservedPhase _) => .refuse .reservedCommand
  | .store index byte :: rest => .outside { s with inputs := rest, msg := s.msg.write index.toNat byte }
  | .reset :: rest => .outside ({ s with inputs := rest }.applyReset)

/-- Puts an encoded operation where the next step fetches it: a host command in front of `inputs`, a phase code in
`phase` with CORE's turn first (log 12). -/
def State.place (s : State) : Encoded → State
  | .h cmd length => { s with inputs := .command cmd length :: s.inputs }
  | .u code =>
    match s.inputs with
    | [] => { s with phase := code }
    | waiting => { s with phase := code, inputs := .command 0b00#2 0#64 :: waiting }

/-- `State.place` of a word of the opcode table; a word no code space holds changes nothing (log 12). -/
def State.placeWord (s : State) (nbits w : Nat) : State :=
  match tableWord nbits w with
  | some c => s.place c
  | none => s

end Sys2Proof.Machine
end

