-- ==== Sys2Proof/Machine/Dispatch.lean ====
section
/-! DEFINITION. One arm per operation of the opcode table. -/

namespace Sys2Proof.Machine

def exec (i : Instr) (s : State) : Host.Outcome State Fault Refusal :=
  match i with
  | .hash length => Sys2Proof.Machine.execHash length s
  | .take => Sys2Proof.Machine.execTake s
  | .create => Sys2Proof.Machine.execCreate s
  | .pad => Sys2Proof.Machine.execPad s
  | .parse => Sys2Proof.Machine.execParse s
  | .hinit => Sys2Proof.Machine.execHinit s
  | .schld => Sys2Proof.Machine.execSchld s
  | .schexp => Sys2Proof.Machine.execSchexp s
  | .winit => Sys2Proof.Machine.execWinit s
  | .round => Sys2Proof.Machine.execRound s
  | .update => Sys2Proof.Machine.execUpdate s
  | .serialize => Sys2Proof.Machine.execSerialize s
  | .discard f => Sys2Proof.Machine.execDiscard f s

end Sys2Proof.Machine
end

