-- ==== Sys2Proof/Machine/Step.lean ====
section
/-! DEFINITION. One step of the machine (R57, R172). -/

namespace Sys2Proof.Machine

/-- One atomic step: the operation the sequencer selects, or a step of HOST or the platform (R172). -/
def step (s : State) : Host.Outcome State Fault Refusal :=
  match nextMove s with
  | .run i s' => exec i s'
  | .outside s' => .next s'
  | .stop f => .fault f
  | .refuse r => .refused r

/-- The state with a word of the opcode table where `step` fetches its next operation (log 12). -/
def State.withFetchWord (s : State) (nbits w : Nat) : State := s.placeWord nbits w

end Sys2Proof.Machine
end

