-- ==== Sys2Proof/Machine/Composite.lean ====
section
/-! DEFINITION. The composite operations, the source's three contracts, as pure functions of bytes and blocks
(R14, R147, R153, R157, R180 to R182).
The four that unfold into whole runs are irreducible: their laws stand in `Laws/Formats.lean`. -/

namespace Sys2Proof.Machine

/-- The padded message of a byte sequence (R71, R72, R121). DESIGN CHOICE, unsafe (log 29): R74 and R180 define it below 2^61
bytes only; on a longer sequence the length field here is `8*n` modulo 2^64. No step computes it there. -/
def padMessage (m : List Byte) : List Byte := paddedBytes m (zeroFill m.length) (bitLength m.length)

/-- `pad_and_parse(M)` (R180). Outside its domain, 2^61 bytes or more, the value is the model's choice (log 29). -/
def padAndParse (m : List Byte) : List Block := parseBlocks (padMessage m)

/-- The first `16 + k` schedule words of a block (R146, R147). -/
def schedulePart (b : Block) : (k : Nat) → Vector Word (16 + k)
  | 0 => b
  | k + 1 =>
    let v := schedulePart b k
    v.push (scheduleWord v[14 + k] v[9 + k] v[1 + k] v[k])

/-- The whole schedule of a block (R147). -/
@[irreducible] def schedule (b : Block) : Vector Word 64 := schedulePart b 48

/-- The working registers after `t` rounds from the digest `h` with the schedule of `b` (R153). -/
@[irreducible] def roundsFrom (h : Vector Word 8) (b : Block) (t : Nat) : Working :=
  ((kTable.toList.zip (schedule b).toList).take t).foldl (fun r kw => roundStep r kw.1 kw.2) (workingOf h)

/-- `compress(H, B)`: one block's compression (R157). -/
@[irreducible] def compress (h : Vector Word 8) (b : Block) : Vector Word 8 := addWorking h (roundsFrom h b 64)

/-- `H_k`: the running digest after the first `k` blocks (R157). -/
@[irreducible] def digestAfter (blocks : List Block) (k : Nat) : Vector Word 8 := (blocks.take k).foldl compress iv

/-- `compute(B)` (R181), the 32 digest bytes. -/
def computeDigest (blocks : List Block) : Vector Byte 32 := digestBytes (digestAfter blocks blocks.length)

/-- `hash(M)` (R182), the 64-character text. Outside its domain, 2^61 bytes or more, the value is the model's choice (log 29). -/
def hashText (m : List Byte) : Vector Byte 64 := hexText (computeDigest (padAndParse m))

end Sys2Proof.Machine
end

