-- ==== Sys2Proof/Safety.lean ====
section
/-! DEFINITION. What a good state is: the invariant of a call, and the vocabulary of the claims. -/

namespace Sys2Proof.Machine

/-- Every call-scoped element, `i` and `t` hold novalue (R21, R42). -/
structure State.Cleared (s : State) : Prop where
  mbuf : s.mbuf = none
  n : s.n = none
  l : s.l = none
  pbuf : s.pbuf = none
  z : s.z = none
  blk : s.blk = none
  nblk : s.nblk = none
  w : s.w = Vector.replicate 64 none
  work : s.work = none
  h : s.h = none
  digestb : s.digestb = none
  hex : s.hex = none
  i : s.i = none
  t : s.t = none

/-- CREATE has copied the message `m` (R26, R27). -/
structure State.Received (s : State) (m : List Byte) : Prop where
  mbuf : s.mbuf = some m
  n : s.n = some m.length
  l : s.l = some (bitLength m.length)
  fits : m.length ≤ s.msgCap.val

/-- PAD has padded the message `m` (R28). -/
structure State.Padded (s : State) (m : List Byte) : Prop extends s.Received m where
  pbuf : s.pbuf = some (padMessage m)
  z : s.z = some (zeroFill m.length)

/-- PARSE has cut the padded message into blocks (R29). -/
structure State.Parsed (s : State) (m : List Byte) : Prop extends s.Padded m where
  blk : s.blk = some (padAndParse m)
  nblk : s.nblk = some (padAndParse m).length

/-- A call is being computed: no fault, no TAKE pending, no output yet (R33, R34, R175). -/
structure State.Computing (s : State) : Prop where
  errcode : s.errcode = 0#4
  takeq : s.takeq = false
  digestb : s.digestb = none
  hex : s.hex = none

/-- The compressor has not started: its registers and counters hold novalue. -/
structure State.Unstarted (s : State) : Prop where
  w : s.w = Vector.replicate 64 none
  work : s.work = none
  h : s.h = none
  i : s.i = none
  t : s.t = none

/-- The compressor is at block `k`, which is `b`, with the digest of the blocks before it (R157). -/
structure State.AtBlock (s : State) (m : List Byte) (k : Nat) (b : Block) : Prop where
  parsed : s.Parsed m
  computing : s.Computing
  i : s.i = some k
  block : (padAndParse m)[k]? = some b
  h : s.h = some (digestAfter (padAndParse m) k)

/-- The first `t` words of the schedule of `b` are written, the others hold novalue (R24, R144, R146). -/
def State.Scheduled (s : State) (b : Block) (t : Nat) : Prop :=
  ∀ j, (hj : j < 64) → s.w[j] = if j < t then some (schedule b)[j] else none

/-- What every element holds in each phase of a call on a message `m`: one case for each phase (R30).
It carries the whole meaning of the call: in phase DONE the outputs are those of `hash(m)` (R182). -/
inductive State.InCall (s : State) : Prop where
  | idle (phase : s.phase = Phase.idle.code) (cleared : s.Cleared) (errcode : s.errcode = 0#4) (takeq : s.takeq = false)
  | fault (phase : s.phase = Phase.fault.code) (cleared : s.Cleared) (errcode : s.errcode = 1#4 ∨ s.errcode = 2#4)
  | pad (m : List Byte) (phase : s.phase = Phase.pad.code) (received : s.Received m) (computing : s.Computing)
      (unstarted : s.Unstarted) (pbuf : s.pbuf = none) (z : s.z = none) (blk : s.blk = none) (nblk : s.nblk = none)
  | parse (m : List Byte) (phase : s.phase = Phase.parse.code) (padded : s.Padded m) (computing : s.Computing)
      (unstarted : s.Unstarted) (blk : s.blk = none) (nblk : s.nblk = none)
  | hinit (m : List Byte) (phase : s.phase = Phase.hinit.code) (parsed : s.Parsed m) (computing : s.Computing)
      (unstarted : s.Unstarted)
  | schld (m : List Byte) (k : Nat) (b : Block) (phase : s.phase = Phase.schld.code) (at_block : s.AtBlock m k b)
  | schexp (m : List Byte) (k : Nat) (b : Block) (t : Nat) (phase : s.phase = Phase.schexp.code)
      (at_block : s.AtBlock m k b) (t_eq : s.t = some t) (low : 16 ≤ t) (high : t ≤ 63) (scheduled : s.Scheduled b t)
  | winit (m : List Byte) (k : Nat) (b : Block) (phase : s.phase = Phase.winit.code)
      (at_block : s.AtBlock m k b) (t_eq : s.t = some 63) (scheduled : s.Scheduled b 64)
  | round (m : List Byte) (k : Nat) (b : Block) (t : Nat) (phase : s.phase = Phase.round.code)
      (at_block : s.AtBlock m k b) (t_eq : s.t = some t) (high : t ≤ 63) (scheduled : s.Scheduled b 64)
      (work : s.work = some (roundsFrom (digestAfter (padAndParse m) k) b t))
  | update (m : List Byte) (k : Nat) (b : Block) (phase : s.phase = Phase.update.code)
      (at_block : s.AtBlock m k b) (t_eq : s.t = some 63) (scheduled : s.Scheduled b 64)
      (work : s.work = some (roundsFrom (digestAfter (padAndParse m) k) b 64))
  | serialize (m : List Byte) (phase : s.phase = Phase.serialize.code) (parsed : s.Parsed m) (computing : s.Computing)
      (i : s.i = some (padAndParse m).length) (t_eq : s.t = some 63)
      (h : s.h = some (digestAfter (padAndParse m) (padAndParse m).length))
  | done (m : List Byte) (phase : s.phase = Phase.done.code) (parsed : s.Parsed m) (errcode : s.errcode = 0#4)
      (i : s.i = some (padAndParse m).length) (t_eq : s.t = some 63)
      (h : s.h = some (digestAfter (padAndParse m) (padAndParse m).length))
      (digestb : s.digestb = some (computeDigest (padAndParse m))) (hex : s.hex = some (hashText m))

/-- The invariant of the machine: MSG is in canonical form and the call is as its phase says. -/
structure State.Inv (s : State) : Prop where
  msg_wf : s.msg.wf
  call : s.InCall

/-- The request in REQ is one CREATE admits, for the message `m` in MSG (R120). -/
structure State.Admits (s : State) (r : Request) (m : List Byte) : Prop where
  req : s.req = some r
  fits : r.length.toNat ≤ s.msgCap.val
  message : s.msg.readBytes 0 r.length.toNat = .ok m

/-- The number of blocks of a message of `n` bytes (R127). -/
def blockCount (n : Nat) : Nat := (n + 8) / 64 + 1

/-- Applies a function to the state of an outcome. -/
def mapNext (f : State → State) : Host.Outcome State Fault Refusal → Host.Outcome State Fault Refusal
  | .next s => .next (f s)
  | .fault r => .fault r
  | .refused r => .refused r

/-- `k` steps of the machine, stopping at the first fault or refusal. -/
def runSteps : Nat → State → Host.Outcome State Fault Refusal
  | 0, s => .next s
  | k + 1, s =>
    match step s with
    | .next t => runSteps k t
    | .fault f => .fault f
    | .refused r => .refused r

end Sys2Proof.Machine
end

