-- ==== Sys2Proof/Certificates/Slice0/Obligations.lean ====
section
/-! DEFINITION. The statements for the provers, each from the spec's numbered rules.
Phase codes stand as the numbers of R84, sums of words as `+` on 32-bit words (R100). -/

open Sys2Proof Sys2Proof.Machine

/-! ### Encoding (R81, R84 to R86, R90) -/

/-- R81, R84, R85: decoding the code of any well-formed operation gives it back, with LENGTH at every value. -/
def Obligations.DecodeReadsBackEveryEncoding : Prop :=
  ∀ i : Instr, i.wf = true → decode (encode i) = .ok i

/-- R81, R85: what decodes is well formed and encodes to the code it came from; the unused LENGTH of TAKE is free. -/
def Obligations.DecodedOperationsReencode : Prop :=
  (∀ cmd length i, decode (.h cmd length) = .ok i →
    i.wf = true ∧ ∃ l, encode i = .h cmd l ∧ (cmd = 0b01#2 → l = length)) ∧
  (∀ code i, decode (.u code) = .ok i → i.wf = true ∧ encode i = .u code)

/-- R86: host command `11` and the phase codes 12 to 15 are no operations, host command `00` is no command (R81), and a step
that meets host command `11` is refused. -/
def Obligations.ReservedCodesAreNoOperations : Prop :=
  (∀ length, decode (.h 0b11#2 length) = .error .reservedCommand) ∧
  (∀ length, decode (.h 0b00#2 length) = .error .noCommand) ∧
  (∀ code : BitVec 4, 12 ≤ code.toNat → decode (.u code) = .error (.reservedPhase code)) ∧
  (∀ s length rest, s.inputs = .command 0b11#2 length :: rest → step s = .refused .reservedCommand)

/-- R81, R84: some codes, written out bit by bit, read as the operations of the tables. -/
def Obligations.WordsOfTheCodeTablesDecode : Prop :=
  decode (.h 0b01#2 0x0000000000000003#64) = .ok (.hash 3) ∧
  decode (.h 0b10#2 0#64) = .ok .take ∧
  decode (.u 0b0000#4) = .ok .create ∧
  decode (.u 0b0111#4) = .ok .round ∧
  decode (.u 0b1010#4) = .ok (.discard false) ∧
  decode (.u 0b1011#4) = .ok (.discard true)

/-! ### The step and the sequencer (R30, R171, R172, R197, R210) -/

/-- R30, R172: a step of CORE runs the operation `phase` selects; a step of HOST runs the enabled command that is next.
That CORE moves when `inputs` is empty, and that an enabled command at its head goes before CORE's enabled step, is the
model's turn rule (log 1, DESIGN CHOICE): R172 lets the two interleave freely. -/
def Obligations.StepRunsTheDecodedOperation : Prop :=
  (∀ s i, s.inputs = [] → decode (.u s.phase) = .ok i → step s = exec i s) ∧
  (∀ s cmd length rest i, s.inputs = .command cmd length :: rest → decode (.h cmd length) = .ok i →
    s.hostEnabled i = true → step s = exec i { s with inputs := rest })

/-- The model's turn rule (log 1, log 20): while HOST waits with a command that is not enabled, and on a transaction
without a command, CORE has the turn. -/
def Obligations.CoreHasTheTurnWhileHostWaits : Prop :=
  (∀ s cmd length rest i j, s.inputs = .command cmd length :: rest → decode (.h cmd length) = .ok i →
    s.hostEnabled i = false → decode (.u s.phase) = .ok j → step s = exec j s) ∧
  (∀ s length rest j, s.inputs = .command 0b00#2 length :: rest → decode (.u s.phase) = .ok j →
    step s = exec j { s with inputs := rest })

/-- R197: a reserved phase code is the model fault IllegalPhase, and no state that meets the invariant holds one. -/
def Obligations.IllegalPhaseFaultsAndIsUnreachable : Prop :=
  (∀ s : State, s.inputs = [] → 12 ≤ s.phase.toNat → step s = .fault (.illegalPhase s.phase)) ∧
  (∀ s : State, s.Inv → s.phase.toNat < 12)

/-- R42: the value of every element of CORE after reset. -/
def Obligations.ResetLeavesTheValuesOfTheTable : Prop :=
  State.reset.phase = 0b0000#4 ∧ State.reset.Cleared ∧ State.reset.errcode = 0#4 ∧
  State.reset.busy = false ∧ State.reset.done = false ∧ State.reset.err = false ∧
  State.reset.digestPort = none ∧ State.reset.req = none ∧ State.reset.takeq = false

/-- R210, R214: RESET in any state gives the reset state; HOST's memory, what HOST keeps, MSG_CAP and the inputs that
follow are untouched. -/
def Obligations.ResetInputGivesTheResetState : Prop :=
  ∀ s rest, s.inputs = .reset :: rest →
    step s = .next { State.reset with msg := s.msg, results := s.results, msgCap := s.msgCap, inputs := rest }

/-- R50: HOST's write to one cell of MSG is read back there, every other cell reads as before, and nothing else of the
machine changes. -/
def Obligations.StoreWritesOneMessageCell : Prop :=
  ∀ s a b rest, s.inputs = .store a b :: rest →
    ∃ t, step s = .next t ∧ t = { s with inputs := rest, msg := t.msg } ∧ t.msg.read a.toNat = some b ∧
      ∀ a', a' ≠ a.toNat → t.msg.read a' = s.msg.read a'

/-- The model's choice (log 7): an agent that waits (R170, R171, R176) leaves the state as it is. -/
def Obligations.WaitingChangesNothing : Prop :=
  (∀ s : State, s.phase = 0b0000#4 → s.req = none → exec .create s = .next s) ∧
  (∀ s : State, s.phase = 0b1010#4 → s.takeq = false → exec (.discard false) s = .next s) ∧
  (∀ s : State, s.phase = 0b1011#4 → s.takeq = false → exec (.discard true) s = .next s) ∧
  (∀ (s : State) (n : Nat), s.req ≠ none → exec (.hash n) s = .next s) ∧
  (∀ s : State, (s.takeq = true ∨ (s.phase ≠ 0b1010#4 ∧ s.phase ≠ 0b1011#4)) → exec .take s = .next s)

/-- R171: whatever operation completes, from whatever state, the phase stays or moves along one row of the table. -/
def Obligations.PhasesFollowTheNextPhaseTable : Prop :=
  ∀ i s t, exec i s = .next t → t.phase = s.phase ∨ (s.phase, t.phase) ∈
    [(0b0000#4, 0b0001#4), (0b0000#4, 0b1011#4), (0b0001#4, 0b0010#4), (0b0010#4, 0b0011#4), (0b0011#4, 0b0100#4),
     (0b0100#4, 0b0101#4), (0b0101#4, 0b0110#4), (0b0110#4, 0b0111#4), (0b0111#4, 0b1000#4), (0b1000#4, 0b0100#4),
     (0b1000#4, 0b1001#4), (0b1001#4, 0b1010#4), (0b1010#4, 0b0000#4), (0b1011#4, 0b0000#4)]

/-! ### The host commands and DISCARD (R170, R176, R177) -/

/-- R170: HASH is enabled when REQ is empty, in any phase, and writes the request with its LENGTH; outside IDLE the phase
selects no CREATE, so the request waits. -/
def Obligations.HashIsHeldInTheRequest : Prop :=
  (∀ (s : State) (n : Nat), n < 2 ^ 64 → s.req = none →
    ∃ r : Request, r.length.toNat = n ∧ exec (.hash n) s = .next { s with req := some r }) ∧
  (∀ (s : State) (n : Nat), s.hostEnabled (.hash n) = true ↔ s.req = none) ∧
  (∀ s : State, s.phase ≠ 0b0000#4 → decode (.u s.phase) ≠ .ok .create)

/-- R176: TAKE is enabled when TAKEQ is empty and the phase is DONE or FAULT; in DONE HOST keeps the text and the digest, in
FAULT the error code. -/
def Obligations.TakeHandsOverTheResult : Prop :=
  (∀ (s : State) text bytes, s.takeq = false → s.phase = 0b1010#4 → s.hex = some text → s.digestb = some bytes →
    exec .take s = .next { s with results := s.results ++ [.ok text (digestNumber bytes)], takeq := true }) ∧
  (∀ s : State, s.takeq = false → s.phase = 0b1011#4 →
    exec .take s = .next { s with results := s.results ++ [.error s.errcode], takeq := true }) ∧
  (∀ s : State, s.hostEnabled .take = true ↔ s.takeq = false ∧ (s.phase = 0b1010#4 ∨ s.phase = 0b1011#4))

/-- R177: DISCARD, from DONE and from FAULT, leaves exactly the state reset leaves, but a request held in REQ survives. -/
def Obligations.DiscardEndsTheCall : Prop :=
  ∀ (f : Bool) (s : State), s.takeq = true → s.phase = (if f then 0b1011#4 else 0b1010#4) →
    exec (.discard f) s = .next
      { State.reset with req := s.req, msg := s.msg, results := s.results, msgCap := s.msgCap, inputs := s.inputs }

/-! ### The preprocessor (R120 to R130, R190 to R194) -/

/-- R120: CREATE with an admitted request empties REQ, copies the message and sets the length and the bit length. -/
def Obligations.CreateCopiesTheMessage : Prop :=
  ∀ (s : State) (r : Request) (m : List Byte), s.phase = 0b0000#4 → s.Admits r m →
    exec .create s = .next
      { s with req := none, n := some r.length.toNat, mbuf := some m, l := some (BitVec.ofNat 64 (8 * r.length.toNat)),
               phase := 0b0001#4 } ∧
    m.length = r.length.toNat ∧ ∀ j, (hj : j < m.length) → s.msg.read j = some m[j]

/-- R121: the bit length of an admitted message never wraps and is a multiple of 8. -/
def Obligations.BitLengthNeverWraps : Prop :=
  ∀ n : Nat, n ≤ 2 ^ 61 - 1 → (bitLength n).toNat = 8 * n ∧ (bitLength n).toNat ≤ 2 ^ 64 - 8 ∧ (bitLength n).toNat % 8 = 0

/-- R191, R192, R194: a request too long for the bit counter, or for the instance, is consumed and raises its fault;
nothing else changes. -/
def Obligations.CreateRaisesTheLengthFaults : Prop :=
  (∀ (s : State) (r : Request), s.phase = 0b0000#4 → s.req = some r → 2 ^ 61 ≤ r.length.toNat →
    exec .create s = .next { s with req := none, errcode := 1#4, phase := 0b1011#4 }) ∧
  (∀ (s : State) (r : Request), s.phase = 0b0000#4 → s.req = some r → r.length.toNat ≤ 2 ^ 61 - 1 →
    s.msgCap.val < r.length.toNat →
    exec .create s = .next { s with req := none, errcode := 2#4, phase := 0b1011#4 })

/-- R190: no operation but CREATE enters FAULT; when it does, ERRCODE is 1 or 2, each under its condition, and nothing but
REQ, ERRCODE and the phase has changed. -/
def Obligations.OnlyCreateRaisesFaults : Prop :=
  ∀ i s t, exec i s = .next t → t.phase = 0b1011#4 → s.phase ≠ 0b1011#4 →
    i = .create ∧ t = { s with phase := t.phase, errcode := t.errcode, req := none } ∧
    ∃ r : Request, s.req = some r ∧
      ((t.errcode = 1#4 ∧ r.length.toNat > 2 ^ 61 - 1) ∨
        (t.errcode = 2#4 ∧ r.length.toNat ≤ 2 ^ 61 - 1 ∧ r.length.toNat > s.msgCap.val))

/-- The model's choice (log 3): CREATE stops at the first message cell HOST did not supply, which R186 makes HOST's duty. -/
def Obligations.CreateStopsAtAMissingMessageByte : Prop :=
  ∀ (s : State) (r : Request) (k : Nat), s.phase = 0b0000#4 → s.req = some r → r.length.toNat ≤ s.msgCap.val →
    k < r.length.toNat → (∀ j, j < k → s.msg.read j ≠ none) → s.msg.read k = none →
    exec .create s = .fault (.noSuchElement (.msg k))

/-- R124: PAD appends the delimiter, `(55 - n) mod 64` zero bytes and the length field. -/
def Obligations.PadAppendsThePadding : Prop :=
  ∀ (s : State) n m l, s.phase = 0b0001#4 → s.n = some n → s.mbuf = some m → s.l = some l →
    exec .pad s = .next
      { s with z := some ((55 - (n : Int)) % 64).toNat,
               pbuf := some (m ++ [0x80#8] ++ List.replicate ((55 - (n : Int)) % 64).toNat 0x00#8 ++ be64 l),
               phase := 0b0010#4 }

/-- R130: PARSE gives `len(PBUF) div 64` blocks, each word made of its four bytes, the first most significant. -/
def Obligations.ParseCutsTheBytesIntoBlocks : Prop :=
  ∀ (s : State) (p : List Byte), s.phase = 0b0010#4 → s.pbuf = some p →
    ∃ blocks : List Block,
      exec .parse s = .next { s with nblk := some (p.length / 64), blk := some blocks, phase := 0b0011#4 } ∧
      blocks.length = p.length / 64 ∧
      ∀ i j, (hi : i < p.length / 64) → (hj : j < 16) →
        (blocks[i]?.map fun b => (b[j]).toNat) = some
          (p[64 * i + 4 * j].toNat * 2 ^ 24 + p[64 * i + 4 * j + 1].toNat * 2 ^ 16 +
            p[64 * i + 4 * j + 2].toNat * 2 ^ 8 + p[64 * i + 4 * j + 3].toNat)

/-! ### The compressor (R140 to R160) -/

/-- R140: HINIT loads the eight initial values of R110 (their numbers are presumed, log 15) and sets the block index to 0. -/
def Obligations.HinitLoadsTheInitialValues : Prop :=
  ∀ s : State, s.phase = 0b0011#4 → exec .hinit s = .next
    { s with h := some #v[0x6a09e667#32, 0xbb67ae85#32, 0x3c6ef372#32, 0xa54ff53a#32,
                          0x510e527f#32, 0x9b05688c#32, 0x1f83d9ab#32, 0x5be0cd19#32],
             i := some 0, phase := 0b0100#4 }

/-- R144: SCHLD loads the block's sixteen words, makes the other schedule words novalue and sets `t` to 16. -/
def Obligations.SchldLoadsTheBlock : Prop :=
  ∀ (s : State) k blocks b, s.phase = 0b0100#4 → s.i = some k → s.blk = some blocks → blocks[k]? = some b →
    ∃ w' : Vector (Option Word) 64,
      exec .schld s = .next { s with w := w', t := some 16, phase := 0b0101#4 } ∧
      (∀ j, (hj : j < 16) → w'[j] = some b[j]) ∧ ∀ j, (hj : j < 64) → 16 ≤ j → w'[j] = none

/-- R146: SCHEXP computes one schedule word and goes on to the next, or to WINIT after word 63. -/
def Obligations.SchexpComputesOneWord : Prop :=
  ∀ (s : State) (t : Nat) (w2 w7 w15 w16 : Word) (low : 16 ≤ t) (high : t ≤ 63), s.phase = 0b0101#4 → s.t = some t →
    s.w[t - 2] = some w2 → s.w[t - 7] = some w7 → s.w[t - 15] = some w15 → s.w[t - 16] = some w16 →
    exec .schexp s = .next
      { s with w := s.w.set t (some (ssig1 w2 + w7 + ssig0 w15 + w16)),
               t := some (if t = 63 then 63 else t + 1),
               phase := if t = 63 then 0b0110#4 else 0b0101#4 }

/-- R150: WINIT copies the running digest into the working registers and sets `t` to 0. -/
def Obligations.WinitCopiesTheDigest : Prop :=
  ∀ (s : State) h, s.phase = 0b0110#4 → s.h = some h →
    exec .winit s = .next
      { s with work := some { a := h[0], b := h[1], c := h[2], d := h[3], e := h[4], f := h[5], g := h[6], h := h[7] },
               t := some 0, phase := 0b0111#4 }

/-- R152: ROUND computes T1 and T2 from the old registers and shifts the eight registers at once. -/
def Obligations.RoundShiftsTheRegisters : Prop :=
  ∀ (s : State) (t : Nat) (r : Working) (w : Word) (high : t ≤ 63), s.phase = 0b0111#4 → s.t = some t →
    s.work = some r → s.w[t] = some w →
    exec .round s = .next
      { s with
        work := some
          { a := (r.h + bsig1 r.e + ch r.e r.f r.g + kTable[t] + w) + (bsig0 r.a + maj r.a r.b r.c)
            b := r.a, c := r.b, d := r.c
            e := r.d + (r.h + bsig1 r.e + ch r.e r.f r.g + kTable[t] + w)
            f := r.e, g := r.f, h := r.g }
        t := some (if t = 63 then 63 else t + 1)
        phase := if t = 63 then 0b1000#4 else 0b0111#4 }

/-- R156: UPDATE adds the working registers into the digest and goes to the next block, or to SERIALIZE after the last. -/
def Obligations.UpdateAddsIntoTheDigest : Prop :=
  ∀ (s : State) h r i blocks, s.phase = 0b1000#4 → s.h = some h → s.work = some r → s.i = some i → s.nblk = some blocks →
    exec .update s = .next
      { s with h := some #v[h[0] + r.a, h[1] + r.b, h[2] + r.c, h[3] + r.d, h[4] + r.e, h[5] + r.f, h[6] + r.g, h[7] + r.h],
               i := some (i + 1), phase := if i + 1 = blocks then 0b1001#4 else 0b0100#4 }

/-- R160, R78, R80: SERIALIZE writes the digest's bytes, big-endian, and two characters for each, the high nibble first. The
characters are lowercase (R9, D8) in ASCII codes (log 16, PRESUMED). -/
def Obligations.SerializeWritesTheDigest : Prop :=
  (∀ (s : State) h, s.phase = 0b1001#4 → s.h = some h →
    ∃ (d : Vector Byte 32) (x : Vector Byte 64),
      exec .serialize s = .next { s with digestb := some d, hex := some x, phase := 0b1010#4 } ∧
      (∀ k j, (hk : k < 8) → (hj : j < 4) → d[4 * k + j] = (h[k]).extractLsb' (24 - 8 * j) 8) ∧
      (∀ m, (hm : m < 32) →
        x[2 * m] = hexDigit (d[m].extractLsb' 4 4) ∧ x[2 * m + 1] = hexDigit (d[m].extractLsb' 0 4))) ∧
  (∀ v : BitVec 4, (hexDigit v).toNat = if v.toNat ≤ 9 then 0x30 + v.toNat else 0x61 + (v.toNat - 10))

/-- R196: a step that reads an element holding novalue faults with its name: every read of a call-scoped element in R44, and
TAKE's reads of the outputs (R176). Where several are novalue, the first in the model's reading order is named (log 30). -/
def Obligations.ReadingNovalueFaults : Prop :=
  -- PAD: n, MBUF, L
  (∀ s : State, s.phase = 0b0001#4 → s.n = none → exec .pad s = .fault (.uninitRead .n)) ∧
  (∀ s : State, s.phase = 0b0001#4 → s.n ≠ none → s.mbuf = none → exec .pad s = .fault (.uninitRead .mbuf)) ∧
  (∀ s : State, s.phase = 0b0001#4 → s.n ≠ none → s.mbuf ≠ none → s.l = none →
    exec .pad s = .fault (.uninitRead .l)) ∧
  -- PARSE: PBUF
  (∀ s : State, s.phase = 0b0010#4 → s.pbuf = none → exec .parse s = .fault (.uninitRead .pbuf)) ∧
  -- SCHLD: i, BLK
  (∀ s : State, s.phase = 0b0100#4 → s.i = none → exec .schld s = .fault (.uninitRead .i)) ∧
  (∀ s : State, s.phase = 0b0100#4 → s.i ≠ none → s.blk = none → exec .schld s = .fault (.uninitRead .blocks)) ∧
  -- SCHEXP: t, W[t-2], W[t-7], W[t-15], W[t-16]
  (∀ s : State, s.phase = 0b0101#4 → s.t = none → exec .schexp s = .fault (.uninitRead .t)) ∧
  (∀ (s : State) (t : Nat) (low : 16 ≤ t) (high : t ≤ 63), s.phase = 0b0101#4 → s.t = some t →
    (s.w[t - 2] = none → exec .schexp s = .fault (.uninitRead (.w (t - 2)))) ∧
    (s.w[t - 2] ≠ none → s.w[t - 7] = none → exec .schexp s = .fault (.uninitRead (.w (t - 7)))) ∧
    (s.w[t - 2] ≠ none → s.w[t - 7] ≠ none → s.w[t - 15] = none →
      exec .schexp s = .fault (.uninitRead (.w (t - 15)))) ∧
    (s.w[t - 2] ≠ none → s.w[t - 7] ≠ none → s.w[t - 15] ≠ none → s.w[t - 16] = none →
      exec .schexp s = .fault (.uninitRead (.w (t - 16))))) ∧
  -- WINIT: H
  (∀ s : State, s.phase = 0b0110#4 → s.h = none → exec .winit s = .fault (.uninitRead .h)) ∧
  -- ROUND: t, a..h, W[t]
  (∀ s : State, s.phase = 0b0111#4 → s.t = none → exec .round s = .fault (.uninitRead .t)) ∧
  (∀ s : State, s.phase = 0b0111#4 → s.t ≠ none → s.work = none → exec .round s = .fault (.uninitRead .work)) ∧
  (∀ (s : State) (t : Nat) (high : t ≤ 63), s.phase = 0b0111#4 → s.t = some t → s.work ≠ none → s.w[t] = none →
    exec .round s = .fault (.uninitRead (.w t))) ∧
  -- UPDATE: H, a..h, i, N
  (∀ s : State, s.phase = 0b1000#4 → s.h = none → exec .update s = .fault (.uninitRead .h)) ∧
  (∀ s : State, s.phase = 0b1000#4 → s.h ≠ none → s.work = none → exec .update s = .fault (.uninitRead .work)) ∧
  (∀ s : State, s.phase = 0b1000#4 → s.h ≠ none → s.work ≠ none → s.i = none →
    exec .update s = .fault (.uninitRead .i)) ∧
  (∀ s : State, s.phase = 0b1000#4 → s.h ≠ none → s.work ≠ none → s.i ≠ none → s.nblk = none →
    exec .update s = .fault (.uninitRead .nblk)) ∧
  -- SERIALIZE: H
  (∀ s : State, s.phase = 0b1001#4 → s.h = none → exec .serialize s = .fault (.uninitRead .h)) ∧
  -- TAKE in DONE: HEX, DIGESTB
  (∀ s : State, s.phase = 0b1010#4 → s.takeq = false → s.hex = none → exec .take s = .fault (.uninitRead .hex)) ∧
  (∀ s : State, s.phase = 0b1010#4 → s.takeq = false → s.hex ≠ none → s.digestb = none →
    exec .take s = .fault (.uninitRead .digestb))

/-- The model's choice (log 9): an index outside its file names no element. Only states no run reaches hold one. -/
def Obligations.IndicesOutsideTheirFilesStop : Prop :=
  (∀ (s : State) k blocks, s.phase = 0b0100#4 → s.i = some k → s.blk = some blocks → blocks.length ≤ k →
    exec .schld s = .fault (.noSuchElement (.blk k))) ∧
  (∀ (s : State) t, s.phase = 0b0101#4 → s.t = some t → (t < 16 ∨ 63 < t) →
    exec .schexp s = .fault (.noSuchElement (.w t))) ∧
  (∀ (s : State) t r, s.phase = 0b0111#4 → s.t = some t → s.work = some r → 63 < t →
    exec .round s = .fault (.noSuchElement (.k t)))

/-- The model's choice (log 7): a micro-operation whose phase is not the current one is not performed, and nothing changes. -/
def Obligations.OperationsWaitOutsideTheirPhase : Prop :=
  ∀ (s : State) (c : BitVec 4) i, decode (.u c) = .ok i → s.phase ≠ c → exec i s = .next s

/-! ### Frames (R44) -/

/-- R44, R177: HASH changes REQ only; TAKE changes TAKEQ and what HOST keeps; DISCARD leaves REQ, what HOST keeps, MSG_CAP
and the inputs; every byte of MSG reads as before. -/
def Obligations.HostCommandsAndDiscardFrame : Prop :=
  (∀ n s t, exec (.hash n) s = .next t → t = { s with req := t.req } ∧ ∀ a, t.msg.read a = s.msg.read a) ∧
  (∀ s t, exec .take s = .next t → t = { s with takeq := t.takeq, results := t.results } ∧
    ∀ a, t.msg.read a = s.msg.read a) ∧
  (∀ f s t, exec (.discard f) s = .next t →
    t.req = s.req ∧ t.results = s.results ∧ t.msgCap = s.msgCap ∧ t.inputs = s.inputs ∧
    ∀ a, t.msg.read a = s.msg.read a)

/-- R44: what CREATE, PAD and PARSE leave unchanged; every byte of MSG reads as before. -/
def Obligations.PreprocessorFrame : Prop :=
  (∀ s t, exec .create s = .next t →
    t = { s with req := t.req, n := t.n, mbuf := t.mbuf, l := t.l, errcode := t.errcode, phase := t.phase } ∧
    ∀ a, t.msg.read a = s.msg.read a) ∧
  (∀ s t, exec .pad s = .next t → t = { s with z := t.z, pbuf := t.pbuf, phase := t.phase } ∧
    ∀ a, t.msg.read a = s.msg.read a) ∧
  (∀ s t, exec .parse s = .next t → t = { s with nblk := t.nblk, blk := t.blk, phase := t.phase } ∧
    ∀ a, t.msg.read a = s.msg.read a)

/-- R44: what the compressor's operations leave unchanged: SCHEXP all schedule words but `W[t]`, SERIALIZE `H`, the
rounds `H` (R221); every byte of MSG reads as before. -/
def Obligations.CompressorFrame : Prop :=
  (∀ s t, exec .hinit s = .next t → t = { s with h := t.h, i := t.i, phase := t.phase }) ∧
  (∀ s t, exec .schld s = .next t → t = { s with w := t.w, t := t.t, phase := t.phase }) ∧
  (∀ s t, exec .schexp s = .next t → t = { s with w := t.w, t := t.t, phase := t.phase } ∧
    ∀ j, (hj : j < 64) → s.t ≠ some j → t.w[j] = s.w[j]) ∧
  (∀ s t, exec .winit s = .next t → t = { s with work := t.work, t := t.t, phase := t.phase }) ∧
  (∀ s t, exec .round s = .next t → t = { s with work := t.work, t := t.t, phase := t.phase }) ∧
  (∀ s t, exec .update s = .next t → t = { s with h := t.h, i := t.i, phase := t.phase }) ∧
  (∀ s t, exec .serialize s = .next t → t = { s with digestb := t.digestb, hex := t.hex, phase := t.phase }) ∧
  (∀ i s t, i ∈ [Instr.hinit, .schld, .schexp, .winit, .round, .update, .serialize] → exec i s = .next t →
    ∀ a, t.msg.read a = s.msg.read a)

/-- R50, R57, R214: no operation writes HOST's message space, MSG_CAP or the inputs, and only TAKE adds to what HOST keeps. -/
def Obligations.OperationsNeverWriteHostSpace : Prop :=
  ∀ i s t, exec i s = .next t →
    t.msg = s.msg ∧ t.msgCap = s.msgCap ∧ t.inputs = s.inputs ∧ (i ≠ .take → t.results = s.results)

/-- R57, R170: once a request is accepted, neither a waiting request nor what HOST writes to MSG disturbs any operation. -/
def Obligations.CallIgnoresWaitingRequestAndMessage : Prop :=
  ∀ i (s : State) (r : Option Request) (m : Memory), i ≠ .create → (∀ n, i ≠ .hash n) →
    exec i { s with req := r, msg := m } = mapNext (fun t => { t with req := r, msg := m }) (exec i s)

/-! ### Flags, ERRCODE and outputs (R33, R34, R175) -/

/-- R33: the flags are functions of the phase, at most one is 1, and all three are 0 exactly in IDLE. -/
def Obligations.FlagsFollowThePhase : Prop :=
  ∀ s : State,
    (s.busy = true ↔ s.phase ≠ 0b0000#4 ∧ s.phase ≠ 0b1010#4 ∧ s.phase ≠ 0b1011#4) ∧
    (s.done = true ↔ s.phase = 0b1010#4) ∧ (s.err = true ↔ s.phase = 0b1011#4) ∧
    ¬(s.busy = true ∧ s.done = true) ∧ ¬(s.busy = true ∧ s.err = true) ∧ ¬(s.done = true ∧ s.err = true) ∧
    (s.busy = false ∧ s.done = false ∧ s.err = false ↔ s.phase = 0b0000#4)

/-- R34, R175: under the invariant ERRCODE is 1 or 2 while ERR is 1 and 0 otherwise, and the outputs hold novalue outside
DONE. -/
def Obligations.ErrcodeAndOutputsFollowThePhase : Prop :=
  ∀ s : State, s.Inv →
    (s.err = true → s.errcode = 1#4 ∨ s.errcode = 2#4) ∧ (s.err = false → s.errcode = 0#4) ∧
    (s.done = false → s.digestb = none ∧ s.hex = none ∧ s.digestPort = none)

/-- R62, R175: while the machine stays in DONE the outputs do not change, whatever steps are taken. -/
def Obligations.OutputsAreStableInDone : Prop :=
  ∀ s t : State, step s = .next t → s.phase = 0b1010#4 → t.phase = 0b1010#4 →
    t.digestb = s.digestb ∧ t.hex = s.hex

/-! ### Word functions and tables (R100 to R111) -/

/-- R100: addition modulo 2^32; a sum of five words is their sum as natural numbers reduced once. -/
def Obligations.AdditionIsModuloTwoToThe32 : Prop :=
  (∀ x y : Word, (add32 x y).toNat = (x.toNat + y.toNat) % 2 ^ 32) ∧
  (∀ x y : Word, add32 x y = add32 y x) ∧
  (∀ x y z : Word, add32 (add32 x y) z = add32 x (add32 y z)) ∧
  (∀ v x y z w : Word, (add32 (add32 (add32 (add32 v x) y) z) w).toNat =
    (v.toNat + x.toNat + y.toNat + z.toNat + w.toNat) % 2 ^ 32)

/-- R102, R103: bit `k` of a rotation is bit `(k + n) mod 32`, of a right shift bit `k + n` or 0; the two halves of a
rotation share no set bit, so `or`, `xor` and addition join them alike. -/
def Obligations.RotationsAndShiftsMoveBits : Prop :=
  (∀ (x : Word) (n : Nat) (hn : 0 < n ∧ n < 32) (k : Nat), k < 32 →
    (rotr x n hn).getLsbD k = x.getLsbD ((k + n) % 32)) ∧
  (∀ (x : Word) (n : Nat) (hn : 0 < n ∧ n < 32), rotr x n hn = (x >>> n) ||| (x <<< (32 - n)) ∧
    rotr x n hn = (x >>> n) ^^^ (x <<< (32 - n)) ∧ rotr x n hn = add32 (x >>> n) (x <<< (32 - n))) ∧
  (∀ (x : Word) (n k : Nat), 1 ≤ n → n ≤ 31 → k < 32 →
    (shr x n).getLsbD k = if k + n ≤ 31 then x.getLsbD (k + n) else false) ∧
  (∀ (x : Word) (n : Nat), 1 ≤ n → n ≤ 31 →
    (shr x n).toNat = x.toNat / 2 ^ n ∧ (shl x n).toNat = (x.toNat * 2 ^ n) % 2 ^ 32)

/-- R104, R105: Ch selects bit by bit, Maj is the majority of each bit position. -/
def Obligations.ChSelectsAndMajVotes : Prop :=
  ∀ (x y z : Word) (k : Nat), k < 32 →
    (ch x y z).getLsbD k = (if x.getLsbD k then y.getLsbD k else z.getLsbD k) ∧
    (maj x y z).getLsbD k = decide (2 ≤ (x.getLsbD k).toNat + (y.getLsbD k).toNat + (z.getLsbD k).toNat)

/-- R106 to R109: the four sigma functions bit by bit; the third term of the small ones is a shift. -/
def Obligations.SigmasCombineRotationsAndShifts : Prop :=
  ∀ (x : Word) (k : Nat), k < 32 →
    (bsig0 x).getLsbD k = ((x.getLsbD ((k + 2) % 32) ^^ x.getLsbD ((k + 13) % 32)) ^^ x.getLsbD ((k + 22) % 32)) ∧
    (bsig1 x).getLsbD k = ((x.getLsbD ((k + 6) % 32) ^^ x.getLsbD ((k + 11) % 32)) ^^ x.getLsbD ((k + 25) % 32)) ∧
    (ssig0 x).getLsbD k = ((x.getLsbD ((k + 7) % 32) ^^ x.getLsbD ((k + 18) % 32)) ^^ (decide (k + 3 < 32) && x.getLsbD (k + 3))) ∧
    (ssig1 x).getLsbD k = ((x.getLsbD ((k + 17) % 32) ^^ x.getLsbD ((k + 19) % 32)) ^^ (decide (k + 10 < 32) && x.getLsbD (k + 10)))

/-- R110 to R112: all 64 words of K as R111 prints them (their numbers are presumed, log 15), the checksums of V18 over both
tables, and the known answer of V25 that reaches every word of both. -/
def Obligations.TablesHaveTheirChecksums : Prop :=
  kTable.toList =
    [0x428a2f98#32, 0x71374491#32, 0xb5c0fbcf#32, 0xe9b5dba5#32, 0x3956c25b#32, 0x59f111f1#32, 0x923f82a4#32, 0xab1c5ed5#32] ++
    [0xd807aa98#32, 0x12835b01#32, 0x243185be#32, 0x550c7dc3#32, 0x72be5d74#32, 0x80deb1fe#32, 0x9bdc06a7#32, 0xc19bf174#32] ++
    [0xe49b69c1#32, 0xefbe4786#32, 0x0fc19dc6#32, 0x240ca1cc#32, 0x2de92c6f#32, 0x4a7484aa#32, 0x5cb0a9dc#32, 0x76f988da#32] ++
    [0x983e5152#32, 0xa831c66d#32, 0xb00327c8#32, 0xbf597fc7#32, 0xc6e00bf3#32, 0xd5a79147#32, 0x06ca6351#32, 0x14292967#32] ++
    [0x27b70a85#32, 0x2e1b2138#32, 0x4d2c6dfc#32, 0x53380d13#32, 0x650a7354#32, 0x766a0abb#32, 0x81c2c92e#32, 0x92722c85#32] ++
    [0xa2bfe8a1#32, 0xa81a664b#32, 0xc24b8b70#32, 0xc76c51a3#32, 0xd192e819#32, 0xd6990624#32, 0xf40e3585#32, 0x106aa070#32] ++
    [0x19a4c116#32, 0x1e376c08#32, 0x2748774c#32, 0x34b0bcb5#32, 0x391c0cb3#32, 0x4ed8aa4a#32, 0x5b9cca4f#32, 0x682e6ff3#32] ++
    [0x748f82ee#32, 0x78a5636f#32, 0x84c87814#32, 0x8cc70208#32, 0x90befffa#32, 0xa4506ceb#32, 0xbef9a3f7#32, 0xc67178f2#32] ∧
  kTable.toList.foldl (· ^^^ ·) 0#32 = 0x95c49cf5#32 ∧ kTable.toList.foldl (· + ·) 0#32 = 0x941d1755#32 ∧
  iv.toList.foldl (· ^^^ ·) 0#32 = 0xc62760eb#32 ∧ iv.toList.foldl (· + ·) 0#32 = 0x6ea8df67#32 ∧
  compress iv (Vector.replicate 16 0#32) =
    #v[0xda5698be#32, 0x17b9b469#32, 0x62335799#32, 0x779fbeca#32, 0x8ce5d491#32, 0xc0d26243#32, 0xbafef9ea#32, 0x1837a9d8#32]

/-! ### Data formats (R71 to R80, R125 to R131, R161) -/

/-- R76: the value of a word assembled from four bytes; splitting and assembling are inverse. -/
def Obligations.BytesAndWordsAreInverse : Prop :=
  (∀ b0 b1 b2 b3 : Byte, (wordBE b0 b1 b2 b3).toNat =
    b0.toNat * 2 ^ 24 + b1.toNat * 2 ^ 16 + b2.toNat * 2 ^ 8 + b3.toNat) ∧
  (∀ v : Word, be32 v = [v.extractLsb' 24 8, v.extractLsb' 16 8, v.extractLsb' 8 8, v.extractLsb' 0 8]) ∧
  (∀ b0 b1 b2 b3 : Byte, be32 (wordBE b0 b1 b2 b3) = [b0, b1, b2, b3]) ∧
  (∀ v : Word, wordBE (v.extractLsb' 24 8) (v.extractLsb' 16 8) (v.extractLsb' 8 8) (v.extractLsb' 0 8) = v)

/-- R72: the zero count is the least that makes the length 56 modulo 64, with its closed forms, in bytes and in bits. -/
def Obligations.ZeroFillIsTheLeast : Prop :=
  ∀ n : Nat, (n + 1 + zeroFill n) % 64 = 56 ∧ (∀ k, (n + 1 + k) % 64 = 56 → zeroFill n ≤ k) ∧ zeroFill n ≤ 63 ∧
    zeroFill n = (55 - (n : Int)) % 64 ∧
    (n % 64 ≤ 55 → zeroFill n = 55 - n % 64) ∧ (56 ≤ n % 64 → zeroFill n = 119 - n % 64) ∧
    (zeroFill n = 0 ↔ n % 64 = 55) ∧ (zeroFill n = 63 ↔ n % 64 = 56) ∧
    (8 * n + 1 + (8 * zeroFill n + 7)) % 512 = 448 ∧ (∀ k, (8 * n + 1 + k) % 512 = 448 → 8 * zeroFill n + 7 ≤ k)

/-- R71, R125: the four fields of the padded message stand where they should, for every message. On a message of 2^61 bytes
or more, which R180 leaves out, the length field is the model's choice (log 29). -/
def Obligations.PaddedMessageHasItsFourFields : Prop :=
  ∀ m : List Byte,
    (padMessage m).length = 64 * blockCount m.length ∧
    (padMessage m).take m.length = m ∧
    (padMessage m)[m.length]? = some 0x80#8 ∧
    (∀ k, m.length < k → k + 8 < (padMessage m).length → (padMessage m)[k]? = some 0x00#8) ∧
    (padMessage m).drop ((padMessage m).length - 8) = be64 (BitVec.ofNat 64 (8 * m.length))

/-- R127: the block count in its three forms, its first values and its greatest one. -/
def Obligations.BlockCountHasThreeForms : Prop :=
  (∀ m : List Byte, (padAndParse m).length = (padMessage m).length / 64 ∧
    (padAndParse m).length = blockCount m.length) ∧
  (∀ n : Nat, blockCount n = (n + 8) / 64 + 1 ∧ blockCount n = (n + 9 + 63) / 64 ∧
    blockCount n = (8 * n + 65 + 511) / 512 ∧ 1 ≤ blockCount n ∧ (blockCount n = 1 ↔ n ≤ 55) ∧
    (blockCount n = 2 ↔ 56 ≤ n ∧ n ≤ 119) ∧ (blockCount n = 3 ↔ 120 ≤ n ∧ n ≤ 183) ∧
    (n ≤ 2 ^ 61 - 1 → blockCount n ≤ 2 ^ 55 + 1)) ∧
  blockCount (2 ^ 61 - 1) = 2 ^ 55 + 1

/-- R131: the bytes can be rebuilt from the blocks, the blocks determine the message, and the last two words of the last
block are the length field (on a message of 2^61 bytes or more, which R180 leaves out, the model's choice, log 29). -/
def Obligations.ParsingLosesNothing : Prop :=
  (∀ p : List Byte, p.length % 64 = 0 → (parseBlocks p).flatMap (fun b => b.toList.flatMap be32) = p) ∧
  (∀ m m' : List Byte, m.length ≤ 2 ^ 61 - 1 → m'.length ≤ 2 ^ 61 - 1 → padAndParse m = padAndParse m' → m = m') ∧
  (∀ m : List Byte, ((padAndParse m)[(padAndParse m).length - 1]?.map fun b => (b[14], b[15])) =
    some ((bitLength m.length).extractLsb' 32 32, (bitLength m.length).extractLsb' 0 32))

/-- R79: byte `m` of DIGESTB is bits `255 - 8*m` down to `248 - 8*m` of DIGEST, and `H[k]` is bits `255 - 32*k` down to
`224 - 32*k`. -/
def Obligations.DigestNumberHoldsTheBytes : Prop :=
  (∀ (d : Vector Byte 32) (m : Nat) (hm : m < 32), (digestNumber d).extractLsb' (248 - 8 * m) 8 = d[m]) ∧
  (∀ (h : Vector Word 8) (k : Nat) (hk : k < 8), (digestNumber (digestBytes h)).extractLsb' (224 - 32 * k) 32 = h[k])

/-- R80, R161: which character stands for which nibble, lowercase (R9) in ASCII codes (log 16, PRESUMED); HEX holds only such
characters, and it determines DIGESTB, which determines `H`. -/
def Obligations.HexTextIsLowercaseAndFaithful : Prop :=
  (∀ v : BitVec 4, (hexDigit v).toNat = if v.toNat ≤ 9 then 0x30 + v.toNat else 0x61 + (v.toNat - 10)) ∧
  (∀ (d : Vector Byte 32) (j : Nat) (hj : j < 64),
    (0x30 ≤ ((hexText d)[j]).toNat ∧ ((hexText d)[j]).toNat ≤ 0x39) ∨
    (0x61 ≤ ((hexText d)[j]).toNat ∧ ((hexText d)[j]).toNat ≤ 0x66)) ∧
  (∀ d d' : Vector Byte 32, hexText d = hexText d' → d = d') ∧
  (∀ h h' : Vector Word 8, digestBytes h = digestBytes h' → h = h')

/-! ### The invariant and whole calls (R21, R157, R173, R177, R182, R183, R195) -/

/-- R42: the reset state meets the invariant. -/
def Obligations.InvariantHoldsAtReset : Prop :=
  State.reset.Inv

/-- R21, R44, R157, R182: every step of CORE, of HOST or of the platform keeps the invariant, which says what every
element holds in each phase: in DONE, the outputs of `hash(m)`. -/
def Obligations.EveryStepKeepsTheInvariant : Prop :=
  ∀ s t : State, s.Inv → step s = .next t → t.Inv

/-- R21, R196, R197: from a state that meets the invariant no step reads novalue or holds an illegal phase: the only
fault a step can end in is a message cell that HOST did not supply to CREATE. -/
def Obligations.NoStepReadsNovalue : Prop :=
  ∀ (s : State) (f : Fault), s.Inv → step s = .fault f →
    ∃ k, f = .noSuchElement (.msg k) ∧ s.phase = 0b0000#4 ∧ s.msg.read k = none

/-- R157: from SCHLD, 115 steps of CORE compress one block into the running digest, from any state and whatever the
registers held before. -/
def Obligations.OneBlockIsCompressedIn115Steps : Prop :=
  ∀ (s : State) k blocks b h, s.inputs = [] → s.phase = 0b0100#4 → s.i = some k → s.blk = some blocks →
    s.nblk = some blocks.length → blocks[k]? = some b → s.h = some h →
    ∃ t : State, runSteps 115 s = .next t ∧ t.h = some (compress h b) ∧ t.i = some (k + 1) ∧
      t.phase = (if k + 1 = blocks.length then 0b1001#4 else 0b0100#4) ∧
      t = { s with w := t.w, t := t.t, work := t.work, h := t.h, i := t.i, phase := t.phase }

/-- R173, R182: from IDLE with an admitted request for the message `m`, whatever the registers hold, CORE reaches DONE in
`115*N + 5` steps with the outputs of `hash(m)`. -/
def Obligations.CallComputesTheHash : Prop :=
  ∀ (s : State) (r : Request) (m : List Byte), s.inputs = [] → s.phase = 0b0000#4 → s.Admits r m →
    ∃ t : State, runSteps (115 * blockCount m.length + 5) s = .next t ∧ t.phase = 0b1010#4 ∧
      t.digestb = some (computeDigest (padAndParse m)) ∧ t.hex = some (hashText m) ∧
      t.errcode = s.errcode ∧ t.takeq = s.takeq ∧ t.msg = s.msg ∧ t.results = s.results

/-- R173, R176 to R178: with HOST's TAKE waiting, the call of an admitted request ends final, HOST keeping the text and
the digest of `hash(m)`: `115*N + 6` steps of CORE and one of HOST. -/
def Obligations.CallHandsOverTheHashAndEnds : Prop :=
  ∀ (s : State) (r : Request) (m : List Byte), s.inputs = [.command 0b10#2 0#64] → s.phase = 0b0000#4 →
    s.takeq = false → s.Admits r m →
    runSteps (115 * blockCount m.length + 7) s = .next
      { State.reset with msg := s.msg, msgCap := s.msgCap,
                         results := s.results ++ [.ok (hashText m) (digestNumber (computeDigest (padAndParse m)))] }

/-- R183: the result of a call is a function of its message alone, whatever the two instances held before. -/
def Obligations.ResultDependsOnTheMessageOnly : Prop :=
  ∀ (s s' : State) (r r' : Request) (m : List Byte), s.inputs = [] → s'.inputs = [] →
    s.phase = 0b0000#4 → s'.phase = 0b0000#4 → s.Admits r m → s'.Admits r' m →
    ∃ k t t', runSteps k s = .next t ∧ runSteps k s' = .next t' ∧
      t.phase = 0b1010#4 ∧ t'.phase = 0b1010#4 ∧ t.hex ≠ none ∧ t.hex = t'.hex ∧ t.digestb = t'.digestb

/-- R173, R195: a refused call is CREATE, TAKE and DISCARD: HOST keeps the error code and the instance is as after reset. -/
def Obligations.RefusedCallEndsWithItsError : Prop :=
  ∀ (s : State) (r : Request), s.inputs = [.command 0b10#2 0#64] → s.phase = 0b0000#4 → s.takeq = false →
    s.req = some r → s.msgCap.val < r.length.toNat →
    runSteps 3 s = .next
      { State.reset with msg := s.msg, msgCap := s.msgCap,
                         results := s.results ++ [.error (if r.length.toNat ≤ 2 ^ 61 - 1 then 2#4 else 1#4)] }
end

