-- ==== Sys2Proof/Laws/Formats.lean ====
section
/-! SUPPORT. The laws of the data formats and of the composite functions. -/

namespace Sys2Proof.Machine

@[simp] theorem be64_length (v : BitVec 64) : (be64 v).length = 8 := rfl

@[simp] theorem be32_length (v : Word) : (be32 v).length = 4 := rfl

theorem wordBE_toNat (b0 b1 b2 b3 : Byte) :
    (wordBE b0 b1 b2 b3).toNat = b0.toNat * 2 ^ 24 + b1.toNat * 2 ^ 16 + b2.toNat * 2 ^ 8 + b3.toNat := by
  have h0 := b0.isLt; have h1 := b1.isLt; have h2 := b2.isLt; have h3 := b3.isLt
  simp only [wordBE, BitVec.toNat_ofNat]
  omega

theorem wordBE_toNat_lit (b0 b1 b2 b3 : Byte) :
    (wordBE b0 b1 b2 b3).toNat = b0.toNat * 16777216 + b1.toNat * 65536 + b2.toNat * 256 + b3.toNat := by
  have h := wordBE_toNat b0 b1 b2 b3
  norm_num at h
  exact h

theorem extract_byte_toNat (v : Word) (k : Nat) : (v.extractLsb' k 8).toNat = v.toNat / 2 ^ k % 256 := by
  simp [BitVec.extractLsb'_toNat, Nat.shiftRight_eq_div_pow]

/-- The most significant byte of an assembled word is the first one; the other three follow. -/
theorem wordBE_byte3 (b0 b1 b2 b3 : Byte) : (wordBE b0 b1 b2 b3).extractLsb' 24 8 = b0 := by
  apply BitVec.eq_of_toNat_eq
  rw [extract_byte_toNat, wordBE_toNat_lit]
  have := b0.isLt; have := b1.isLt; have := b2.isLt; have := b3.isLt
  omega

theorem wordBE_byte2 (b0 b1 b2 b3 : Byte) : (wordBE b0 b1 b2 b3).extractLsb' 16 8 = b1 := by
  apply BitVec.eq_of_toNat_eq
  rw [extract_byte_toNat, wordBE_toNat_lit]
  have := b0.isLt; have := b1.isLt; have := b2.isLt; have := b3.isLt
  omega

theorem wordBE_byte1 (b0 b1 b2 b3 : Byte) : (wordBE b0 b1 b2 b3).extractLsb' 8 8 = b2 := by
  apply BitVec.eq_of_toNat_eq
  rw [extract_byte_toNat, wordBE_toNat_lit]
  have := b0.isLt; have := b1.isLt; have := b2.isLt; have := b3.isLt
  omega

theorem wordBE_byte0 (b0 b1 b2 b3 : Byte) : (wordBE b0 b1 b2 b3).extractLsb' 0 8 = b3 := by
  apply BitVec.eq_of_toNat_eq
  rw [extract_byte_toNat, wordBE_toNat_lit]
  have := b0.isLt; have := b1.isLt; have := b2.isLt; have := b3.isLt
  omega

theorem add32_eq (x y : Word) : add32 x y = x + y := by
  apply BitVec.eq_of_toNat_eq
  simp [add32, BitVec.toNat_add]

theorem zeroFill_lt (n : Nat) : zeroFill n < 64 := by
  unfold zeroFill; omega

theorem zeroFill_spec (n : Nat) : (n + 1 + zeroFill n) % 64 = 56 := by
  unfold zeroFill; omega

theorem paddedBytes_length (m : List Byte) (z : Nat) (l : BitVec 64) :
    (paddedBytes m z l).length = m.length + 1 + z + 8 := by
  simp [paddedBytes]; omega

theorem padMessage_length (m : List Byte) : (padMessage m).length = 64 * ((m.length + 8) / 64 + 1) := by
  rw [padMessage, paddedBytes_length]
  have := zeroFill_spec m.length
  have := zeroFill_lt m.length
  omega

theorem wordsBE_length (p : List Byte) : (wordsBE p).length = p.length / 4 := by
  fun_induction wordsBE p with
  | case1 b0 b1 b2 b3 rest ih => simp [ih]; omega
  | case2 p h =>
    match p, h with
    | [], _ => rfl
    | [_], _ => simp
    | [_, _], _ => simp
    | [_, _, _], _ => simp
    | b0 :: b1 :: b2 :: b3 :: rest, h => exact absurd rfl (h b0 b1 b2 b3 rest)

theorem wordsBE_get (p : List Byte) (j : Nat) (h : 4 * j + 3 < p.length) :
    (wordsBE p)[j]? = some (wordBE p[4 * j] p[4 * j + 1] p[4 * j + 2] p[4 * j + 3]) := by
  induction j generalizing p with
  | zero =>
    match p, h with
    | b0 :: b1 :: b2 :: b3 :: rest, _ => rfl
  | succ j ih =>
    match p, h with
    | b0 :: b1 :: b2 :: b3 :: rest, h =>
      have hr : 4 * j + 3 < rest.length := by simp at h; omega
      have := ih rest hr
      simp only [wordsBE, List.getElem?_cons_succ, this]
      rfl

/-- A list of at least sixteen words opens into its first sixteen and the rest. -/
theorem exists_sixteen (ws : List Word) (h : 16 ≤ ws.length) :
    ∃ w0 w1 w2 w3 w4 w5 w6 w7 w8 w9 w10 w11 w12 w13 w14 w15 rest, ws = w0 :: w1 :: w2 :: w3 :: w4 :: w5 :: w6 :: w7 :: w8 :: w9 :: w10 :: w11 :: w12 :: w13 :: w14 :: w15 :: rest := by
  obtain ⟨w0, ws, rfl⟩ := List.exists_cons_of_length_pos (l := ws) (by omega)
  obtain ⟨w1, ws, rfl⟩ := List.exists_cons_of_length_pos (l := ws) (by simp only [List.length_cons] at h; omega)
  obtain ⟨w2, ws, rfl⟩ := List.exists_cons_of_length_pos (l := ws) (by simp only [List.length_cons] at h; omega)
  obtain ⟨w3, ws, rfl⟩ := List.exists_cons_of_length_pos (l := ws) (by simp only [List.length_cons] at h; omega)
  obtain ⟨w4, ws, rfl⟩ := List.exists_cons_of_length_pos (l := ws) (by simp only [List.length_cons] at h; omega)
  obtain ⟨w5, ws, rfl⟩ := List.exists_cons_of_length_pos (l := ws) (by simp only [List.length_cons] at h; omega)
  obtain ⟨w6, ws, rfl⟩ := List.exists_cons_of_length_pos (l := ws) (by simp only [List.length_cons] at h; omega)
  obtain ⟨w7, ws, rfl⟩ := List.exists_cons_of_length_pos (l := ws) (by simp only [List.length_cons] at h; omega)
  obtain ⟨w8, ws, rfl⟩ := List.exists_cons_of_length_pos (l := ws) (by simp only [List.length_cons] at h; omega)
  obtain ⟨w9, ws, rfl⟩ := List.exists_cons_of_length_pos (l := ws) (by simp only [List.length_cons] at h; omega)
  obtain ⟨w10, ws, rfl⟩ := List.exists_cons_of_length_pos (l := ws) (by simp only [List.length_cons] at h; omega)
  obtain ⟨w11, ws, rfl⟩ := List.exists_cons_of_length_pos (l := ws) (by simp only [List.length_cons] at h; omega)
  obtain ⟨w12, ws, rfl⟩ := List.exists_cons_of_length_pos (l := ws) (by simp only [List.length_cons] at h; omega)
  obtain ⟨w13, ws, rfl⟩ := List.exists_cons_of_length_pos (l := ws) (by simp only [List.length_cons] at h; omega)
  obtain ⟨w14, ws, rfl⟩ := List.exists_cons_of_length_pos (l := ws) (by simp only [List.length_cons] at h; omega)
  obtain ⟨w15, ws, rfl⟩ := List.exists_cons_of_length_pos (l := ws) (by simp only [List.length_cons] at h; omega)
  exact ⟨w0, w1, w2, w3, w4, w5, w6, w7, w8, w9, w10, w11, w12, w13, w14, w15, ws, rfl⟩

theorem chunks16_length (ws : List Word) : (chunks16 ws).length = ws.length / 16 := by
  fun_induction chunks16 ws with
  | case1 w0 w1 w2 w3 w4 w5 w6 w7 w8 w9 w10 w11 w12 w13 w14 w15 rest ih => simp [ih]; omega
  | case2 ws h =>
    have : ws.length < 16 := by
      by_contra hc
      obtain ⟨w0, w1, w2, w3, w4, w5, w6, w7, w8, w9, w10, w11, w12, w13, w14, w15, rest, rfl⟩ := exists_sixteen ws (by omega)
      exact h w0 w1 w2 w3 w4 w5 w6 w7 w8 w9 w10 w11 w12 w13 w14 w15 rest rfl
    simp; omega

theorem chunks16_get (ws : List Word) (i j : Nat) (hi : 16 * i + 15 < ws.length) (hj : j < 16) :
    (chunks16 ws)[i]?.map (fun b => b[j]) = some ws[16 * i + j] := by
  obtain ⟨w0, w1, w2, w3, w4, w5, w6, w7, w8, w9, w10, w11, w12, w13, w14, w15, rest, rfl⟩ := exists_sixteen ws (by omega)
  induction i generalizing w0 w1 w2 w3 w4 w5 w6 w7 w8 w9 w10 w11 w12 w13 w14 w15 rest with
  | zero => interval_cases j <;> rfl
  | succ i ih =>
    have hr : 16 * i + 15 < rest.length := by simp at hi; omega
    obtain ⟨x0, x1, x2, x3, x4, x5, x6, x7, x8, x9, x10, x11, x12, x13, x14, x15, rest, rfl⟩ := exists_sixteen rest (by omega)
    have := ih _ _ _ _ _ _ _ _ _ _ _ _ _ _ _ _ rest hr
    rw [chunks16, List.getElem?_cons_succ, this]
    have e : 16 * (i + 1) + j = 16 * i + j + 16 := by omega
    simp [e]

theorem parseBlocks_length (p : List Byte) : (parseBlocks p).length = p.length / 64 := by
  rw [parseBlocks, chunks16_length, wordsBE_length]; omega

theorem padAndParse_length (m : List Byte) : (padAndParse m).length = (m.length + 8) / 64 + 1 := by
  rw [padAndParse, parseBlocks_length, padMessage_length]; omega

/-! ### The schedule and the rounds -/

theorem schedulePart_succ_get (b : Block) (k j : Nat) (h : j < 16 + k) :
    (schedulePart b (k + 1))[j]'(by omega) = (schedulePart b k)[j] := by
  show ((schedulePart b k).push _)[j]'(by omega) = _
  simp [h]

/-- A word once in the schedule stays there as the schedule grows. -/
theorem schedulePart_get (b : Block) (k m j : Nat) (hk : k ≤ m) (h : j < 16 + k) :
    (schedulePart b m)[j]'(by omega) = (schedulePart b k)[j] := by
  obtain ⟨d, rfl⟩ := Nat.exists_eq_add_of_le hk
  induction d with
  | zero => rfl
  | succ d ih => rw [← ih (by omega)]; exact schedulePart_succ_get b (k + d) j (by omega)

theorem schedule_get_part (b : Block) (k j : Nat) (hk : k ≤ 48) (h : j < 16 + k) :
    (schedule b)[j]'(by omega) = (schedulePart b k)[j] := by
  have e : schedule b = schedulePart b 48 := by rw [schedule]
  simp only [e]
  exact schedulePart_get b k 48 j hk h

/-- The first sixteen schedule words are the block's, verbatim (R144). -/
theorem schedule_block (b : Block) (j : Nat) (h : j < 16) : (schedule b)[j]'(by omega) = b[j] :=
  schedule_get_part b 0 j (by omega) h

/-- The recurrence of the schedule (R146). -/
theorem schedule_word (b : Block) (t : Nat) (low : 16 ≤ t) (high : t < 64) :
    (schedule b)[t] = scheduleWord ((schedule b)[t - 2]'(by omega)) ((schedule b)[t - 7]'(by omega))
      ((schedule b)[t - 15]'(by omega)) ((schedule b)[t - 16]'(by omega)) := by
  obtain ⟨k, rfl⟩ : ∃ k, t = 16 + k := ⟨t - 16, by omega⟩
  rw [schedule_get_part b (k + 1) (16 + k) (by omega) (by omega)]
  rw [schedule_get_part b k (16 + k - 2) (by omega) (by omega), schedule_get_part b k (16 + k - 7) (by omega) (by omega),
    schedule_get_part b k (16 + k - 15) (by omega) (by omega), schedule_get_part b k (16 + k - 16) (by omega) (by omega)]
  show ((schedulePart b k).push _)[16 + k]'(by omega) = _
  have e1 : 16 + k - 2 = 14 + k := by omega
  have e2 : 16 + k - 7 = 9 + k := by omega
  have e3 : 16 + k - 15 = 1 + k := by omega
  have e4 : 16 + k - 16 = k := by omega
  simp [e1, e2, e3, e4]

theorem roundsFrom_zero (h : Vector Word 8) (b : Block) : roundsFrom h b 0 = workingOf h := by
  rw [roundsFrom]; rfl

/-- One more round (R153). -/
theorem roundsFrom_succ (h : Vector Word 8) (b : Block) (t : Nat) (ht : t < 64) :
    roundsFrom h b (t + 1) = roundStep (roundsFrom h b t) kTable[t] (schedule b)[t] := by
  have hl : t < (kTable.toList.zip (schedule b).toList).length := by simp; omega
  rw [roundsFrom, List.take_succ_eq_append_getElem hl, List.foldl_append]
  simp [roundsFrom]

theorem digestAfter_zero (blocks : List Block) : digestAfter blocks 0 = iv := by
  rw [digestAfter]; rfl

/-- One more block (R157). -/
theorem digestAfter_succ (blocks : List Block) (k : Nat) (b : Block) (h : blocks[k]? = some b) :
    digestAfter blocks (k + 1) = compress (digestAfter blocks k) b := by
  obtain ⟨hk, rfl⟩ := List.getElem?_eq_some_iff.1 h
  rw [digestAfter, List.take_succ_eq_append_getElem hk, List.foldl_append]
  simp [digestAfter]

/-- `compress` is all 64 rounds and the addition (R157). -/
theorem compress_eq (h : Vector Word 8) (b : Block) : compress h b = addWorking h (roundsFrom h b 64) := by
  rw [compress]

end Sys2Proof.Machine
end

