-- ==== Sys2Proof/Laws/State.lean ====
section
/-! SUPPORT. One lemma for each field and each named update of the state, true by `rfl`. -/

namespace Sys2Proof.Machine

section
variable (s : State) (p : Phase)

@[simp] theorem State.goto_phase : (s.goto p).phase = p.code := rfl
@[simp] theorem State.goto_i : (s.goto p).i = s.i := rfl
@[simp] theorem State.goto_t : (s.goto p).t = s.t := rfl
@[simp] theorem State.goto_errcode : (s.goto p).errcode = s.errcode := rfl
@[simp] theorem State.goto_work : (s.goto p).work = s.work := rfl
@[simp] theorem State.goto_h : (s.goto p).h = s.h := rfl
@[simp] theorem State.goto_w : (s.goto p).w = s.w := rfl
@[simp] theorem State.goto_mbuf : (s.goto p).mbuf = s.mbuf := rfl
@[simp] theorem State.goto_n : (s.goto p).n = s.n := rfl
@[simp] theorem State.goto_l : (s.goto p).l = s.l := rfl
@[simp] theorem State.goto_pbuf : (s.goto p).pbuf = s.pbuf := rfl
@[simp] theorem State.goto_z : (s.goto p).z = s.z := rfl
@[simp] theorem State.goto_blk : (s.goto p).blk = s.blk := rfl
@[simp] theorem State.goto_nblk : (s.goto p).nblk = s.nblk := rfl
@[simp] theorem State.goto_digestb : (s.goto p).digestb = s.digestb := rfl
@[simp] theorem State.goto_hex : (s.goto p).hex = s.hex := rfl
@[simp] theorem State.goto_req : (s.goto p).req = s.req := rfl
@[simp] theorem State.goto_takeq : (s.goto p).takeq = s.takeq := rfl
@[simp] theorem State.goto_msg : (s.goto p).msg = s.msg := rfl
@[simp] theorem State.goto_results : (s.goto p).results = s.results := rfl
@[simp] theorem State.goto_msgCap : (s.goto p).msgCap = s.msgCap := rfl
@[simp] theorem State.goto_inputs : (s.goto p).inputs = s.inputs := rfl

end

section
variable (s : State) (k : Nat) (v : Word)

@[simp] theorem State.writeW_phase : (s.writeW k v).phase = s.phase := rfl
@[simp] theorem State.writeW_i : (s.writeW k v).i = s.i := rfl
@[simp] theorem State.writeW_t : (s.writeW k v).t = s.t := rfl
@[simp] theorem State.writeW_errcode : (s.writeW k v).errcode = s.errcode := rfl
@[simp] theorem State.writeW_work : (s.writeW k v).work = s.work := rfl
@[simp] theorem State.writeW_h : (s.writeW k v).h = s.h := rfl
@[simp] theorem State.writeW_w : (s.writeW k v).w = s.w.setIfInBounds k (some v) := rfl
@[simp] theorem State.writeW_mbuf : (s.writeW k v).mbuf = s.mbuf := rfl
@[simp] theorem State.writeW_n : (s.writeW k v).n = s.n := rfl
@[simp] theorem State.writeW_l : (s.writeW k v).l = s.l := rfl
@[simp] theorem State.writeW_pbuf : (s.writeW k v).pbuf = s.pbuf := rfl
@[simp] theorem State.writeW_z : (s.writeW k v).z = s.z := rfl
@[simp] theorem State.writeW_blk : (s.writeW k v).blk = s.blk := rfl
@[simp] theorem State.writeW_nblk : (s.writeW k v).nblk = s.nblk := rfl
@[simp] theorem State.writeW_digestb : (s.writeW k v).digestb = s.digestb := rfl
@[simp] theorem State.writeW_hex : (s.writeW k v).hex = s.hex := rfl
@[simp] theorem State.writeW_req : (s.writeW k v).req = s.req := rfl
@[simp] theorem State.writeW_takeq : (s.writeW k v).takeq = s.takeq := rfl
@[simp] theorem State.writeW_msg : (s.writeW k v).msg = s.msg := rfl
@[simp] theorem State.writeW_results : (s.writeW k v).results = s.results := rfl
@[simp] theorem State.writeW_msgCap : (s.writeW k v).msgCap = s.msgCap := rfl
@[simp] theorem State.writeW_inputs : (s.writeW k v).inputs = s.inputs := rfl

end

section
variable (s : State) (c : BitVec 4)

@[simp] theorem State.raiseFault_phase : (s.raiseFault c).phase = Phase.fault.code := rfl
@[simp] theorem State.raiseFault_i : (s.raiseFault c).i = s.i := rfl
@[simp] theorem State.raiseFault_t : (s.raiseFault c).t = s.t := rfl
@[simp] theorem State.raiseFault_errcode : (s.raiseFault c).errcode = c := rfl
@[simp] theorem State.raiseFault_work : (s.raiseFault c).work = s.work := rfl
@[simp] theorem State.raiseFault_h : (s.raiseFault c).h = s.h := rfl
@[simp] theorem State.raiseFault_w : (s.raiseFault c).w = s.w := rfl
@[simp] theorem State.raiseFault_mbuf : (s.raiseFault c).mbuf = s.mbuf := rfl
@[simp] theorem State.raiseFault_n : (s.raiseFault c).n = s.n := rfl
@[simp] theorem State.raiseFault_l : (s.raiseFault c).l = s.l := rfl
@[simp] theorem State.raiseFault_pbuf : (s.raiseFault c).pbuf = s.pbuf := rfl
@[simp] theorem State.raiseFault_z : (s.raiseFault c).z = s.z := rfl
@[simp] theorem State.raiseFault_blk : (s.raiseFault c).blk = s.blk := rfl
@[simp] theorem State.raiseFault_nblk : (s.raiseFault c).nblk = s.nblk := rfl
@[simp] theorem State.raiseFault_digestb : (s.raiseFault c).digestb = s.digestb := rfl
@[simp] theorem State.raiseFault_hex : (s.raiseFault c).hex = s.hex := rfl
@[simp] theorem State.raiseFault_req : (s.raiseFault c).req = none := rfl
@[simp] theorem State.raiseFault_takeq : (s.raiseFault c).takeq = s.takeq := rfl
@[simp] theorem State.raiseFault_msg : (s.raiseFault c).msg = s.msg := rfl
@[simp] theorem State.raiseFault_results : (s.raiseFault c).results = s.results := rfl
@[simp] theorem State.raiseFault_msgCap : (s.raiseFault c).msgCap = s.msgCap := rfl
@[simp] theorem State.raiseFault_inputs : (s.raiseFault c).inputs = s.inputs := rfl

end

section
variable (s : State) 

@[simp] theorem State.clearCall_phase : s.clearCall.phase = s.phase := rfl
@[simp] theorem State.clearCall_i : s.clearCall.i = none := rfl
@[simp] theorem State.clearCall_t : s.clearCall.t = none := rfl
@[simp] theorem State.clearCall_errcode : s.clearCall.errcode = s.errcode := rfl
@[simp] theorem State.clearCall_work : s.clearCall.work = none := rfl
@[simp] theorem State.clearCall_h : s.clearCall.h = none := rfl
@[simp] theorem State.clearCall_w : s.clearCall.w = Vector.replicate 64 none := rfl
@[simp] theorem State.clearCall_mbuf : s.clearCall.mbuf = none := rfl
@[simp] theorem State.clearCall_n : s.clearCall.n = none := rfl
@[simp] theorem State.clearCall_l : s.clearCall.l = none := rfl
@[simp] theorem State.clearCall_pbuf : s.clearCall.pbuf = none := rfl
@[simp] theorem State.clearCall_z : s.clearCall.z = none := rfl
@[simp] theorem State.clearCall_blk : s.clearCall.blk = none := rfl
@[simp] theorem State.clearCall_nblk : s.clearCall.nblk = none := rfl
@[simp] theorem State.clearCall_digestb : s.clearCall.digestb = none := rfl
@[simp] theorem State.clearCall_hex : s.clearCall.hex = none := rfl
@[simp] theorem State.clearCall_req : s.clearCall.req = s.req := rfl
@[simp] theorem State.clearCall_takeq : s.clearCall.takeq = s.takeq := rfl
@[simp] theorem State.clearCall_msg : s.clearCall.msg = s.msg := rfl
@[simp] theorem State.clearCall_results : s.clearCall.results = s.results := rfl
@[simp] theorem State.clearCall_msgCap : s.clearCall.msgCap = s.msgCap := rfl
@[simp] theorem State.clearCall_inputs : s.clearCall.inputs = s.inputs := rfl

end

section
variable (s : State) 

@[simp] theorem State.discardCall_phase : s.discardCall.phase = Phase.idle.code := rfl
@[simp] theorem State.discardCall_i : s.discardCall.i = none := rfl
@[simp] theorem State.discardCall_t : s.discardCall.t = none := rfl
@[simp] theorem State.discardCall_errcode : s.discardCall.errcode = 0#4 := rfl
@[simp] theorem State.discardCall_work : s.discardCall.work = none := rfl
@[simp] theorem State.discardCall_h : s.discardCall.h = none := rfl
@[simp] theorem State.discardCall_w : s.discardCall.w = Vector.replicate 64 none := rfl
@[simp] theorem State.discardCall_mbuf : s.discardCall.mbuf = none := rfl
@[simp] theorem State.discardCall_n : s.discardCall.n = none := rfl
@[simp] theorem State.discardCall_l : s.discardCall.l = none := rfl
@[simp] theorem State.discardCall_pbuf : s.discardCall.pbuf = none := rfl
@[simp] theorem State.discardCall_z : s.discardCall.z = none := rfl
@[simp] theorem State.discardCall_blk : s.discardCall.blk = none := rfl
@[simp] theorem State.discardCall_nblk : s.discardCall.nblk = none := rfl
@[simp] theorem State.discardCall_digestb : s.discardCall.digestb = none := rfl
@[simp] theorem State.discardCall_hex : s.discardCall.hex = none := rfl
@[simp] theorem State.discardCall_req : s.discardCall.req = s.req := rfl
@[simp] theorem State.discardCall_takeq : s.discardCall.takeq = false := rfl
@[simp] theorem State.discardCall_msg : s.discardCall.msg = s.msg := rfl
@[simp] theorem State.discardCall_results : s.discardCall.results = s.results := rfl
@[simp] theorem State.discardCall_msgCap : s.discardCall.msgCap = s.msgCap := rfl
@[simp] theorem State.discardCall_inputs : s.discardCall.inputs = s.inputs := rfl

end

section
variable (s : State) 

@[simp] theorem State.applyReset_phase : s.applyReset.phase = Phase.idle.code := rfl
@[simp] theorem State.applyReset_i : s.applyReset.i = none := rfl
@[simp] theorem State.applyReset_t : s.applyReset.t = none := rfl
@[simp] theorem State.applyReset_errcode : s.applyReset.errcode = 0#4 := rfl
@[simp] theorem State.applyReset_work : s.applyReset.work = none := rfl
@[simp] theorem State.applyReset_h : s.applyReset.h = none := rfl
@[simp] theorem State.applyReset_w : s.applyReset.w = Vector.replicate 64 none := rfl
@[simp] theorem State.applyReset_mbuf : s.applyReset.mbuf = none := rfl
@[simp] theorem State.applyReset_n : s.applyReset.n = none := rfl
@[simp] theorem State.applyReset_l : s.applyReset.l = none := rfl
@[simp] theorem State.applyReset_pbuf : s.applyReset.pbuf = none := rfl
@[simp] theorem State.applyReset_z : s.applyReset.z = none := rfl
@[simp] theorem State.applyReset_blk : s.applyReset.blk = none := rfl
@[simp] theorem State.applyReset_nblk : s.applyReset.nblk = none := rfl
@[simp] theorem State.applyReset_digestb : s.applyReset.digestb = none := rfl
@[simp] theorem State.applyReset_hex : s.applyReset.hex = none := rfl
@[simp] theorem State.applyReset_req : s.applyReset.req = none := rfl
@[simp] theorem State.applyReset_takeq : s.applyReset.takeq = false := rfl
@[simp] theorem State.applyReset_msg : s.applyReset.msg = s.msg := rfl
@[simp] theorem State.applyReset_results : s.applyReset.results = s.results := rfl
@[simp] theorem State.applyReset_msgCap : s.applyReset.msgCap = s.msgCap := rfl
@[simp] theorem State.applyReset_inputs : s.applyReset.inputs = s.inputs := rfl

end

end Sys2Proof.Machine
end

