-- ==== Sys2Proof/Laws/Ops.lean ====
section
/-! SUPPORT. What each shared operation can answer, and the laws of the message space. -/

namespace Sys2Proof.Machine

/-! ### Reading, and performing an operation where it is enabled -/

@[simp] theorem need_some {α : Type} (e : Element) (x : α) : need e (some x) = .ok x := rfl

@[simp] theorem need_none {α : Type} (e : Element) : need e (none : Option α) = .error (.uninitRead e) := rfl

theorem need_eq_ok {α : Type} {e : Element} {o : Option α} {x : α} : need e o = .ok x ↔ o = some x := by
  cases o <;> simp [need]

theorem need_eq_error {α : Type} {e : Element} {o : Option α} {f : Fault} :
    need e o = .error f ↔ o = none ∧ f = .uninitRead e := by
  cases o <;> simp [need, eq_comm]

@[simp] theorem bind_ok {α β : Type} (x : α) (k : α → Except Fault β) : (Except.ok x >>= k) = k x := rfl

@[simp] theorem bind_error {α β : Type} (f : Fault) (k : α → Except Fault β) :
    ((Except.error f : Except Fault α) >>= k) = .error f := rfl

theorem ok_eq_ok {α : Type} {x y : α} : (Except.ok x : Except Fault α) = .ok y ↔ y = x := by
  simp [eq_comm]

theorem bind_eq_ok {α β : Type} {m : Except Fault α} {k : α → Except Fault β} {y : β} :
    (m >>= k) = .ok y ↔ ∃ x, m = .ok x ∧ k x = .ok y := by
  cases m <;> simp

theorem bind_eq_error {α β : Type} {m : Except Fault α} {k : α → Except Fault β} {f : Fault} :
    (m >>= k) = .error f ↔ m = .error f ∨ ∃ x, m = .ok x ∧ k x = .error f := by
  cases m <;> simp

@[simp] theorem outcomeOf_ok (s : State) : outcomeOf (.ok s) = .next s := rfl

@[simp] theorem outcomeOf_error (f : Fault) : outcomeOf (.error f) = .fault f := rfl

theorem outcomeOf_eq_next {m : Except Fault State} {s : State} : outcomeOf m = .next s ↔ m = .ok s := by
  cases m <;> simp [outcomeOf]

theorem outcomeOf_eq_fault {m : Except Fault State} {f : Fault} : outcomeOf m = .fault f ↔ m = .error f := by
  cases m <;> simp [outcomeOf]

theorem outcomeOf_ne_refused (m : Except Fault State) (r : Refusal) : outcomeOf m ≠ .refused r := by
  cases m <;> simp [outcomeOf]

/-- Everything an operation with an enabling condition can answer with a next state. -/
theorem whenEnabled_eq_next {e : Bool} {s s' : State} {act : Except Fault State} :
    whenEnabled e s act = .next s' ↔ (e = true ∧ act = .ok s') ∨ (e = false ∧ s' = s) := by
  cases e
  · simp [whenEnabled, eq_comm]
  · simp [whenEnabled, outcomeOf_eq_next]

theorem whenEnabled_eq_fault {e : Bool} {s : State} {act : Except Fault State} {f : Fault} :
    whenEnabled e s act = .fault f ↔ e = true ∧ act = .error f := by
  cases e <;> simp [whenEnabled, outcomeOf_eq_fault]

theorem whenEnabled_ne_refused (e : Bool) (s : State) (act : Except Fault State) (r : Refusal) :
    whenEnabled e s act ≠ .refused r := by
  cases e <;> simp [whenEnabled, outcomeOf_ne_refused]

@[simp] theorem whenEnabled_true (s : State) (act : Except Fault State) : whenEnabled true s act = outcomeOf act := rfl

@[simp] theorem whenEnabled_false (s : State) (act : Except Fault State) : whenEnabled false s act = .next s := rfl

@[simp] theorem State.inPhase_eq_true {s : State} {p : Phase} : s.inPhase p = true ↔ s.phase = p.code := by
  simp [State.inPhase]

theorem State.inPhase_of {s : State} {p : Phase} (h : s.phase = p.code) : s.inPhase p = true := by
  simpa using h

/-- The codes of the phases are pairwise different (R84). -/
theorem Phase.code_inj {p q : Phase} : p.code = q.code ↔ p = q := by
  cases p <;> cases q <;> decide

/-! ### The message space -/

theorem Memory.read_write_same (m : Memory) (a : Nat) (b : Byte) : (m.write a b).read a = some b := by
  induction m with
  | nil => simp [Memory.write, Memory.read]
  | cons c rest ih =>
    obtain ⟨k, v⟩ := c
    simp only [Memory.write]
    split_ifs with h1 h2 <;> simp_all [Memory.read]
    omega

theorem Memory.read_write_other (m : Memory) {a a' : Nat} (b : Byte) (h : a' ≠ a) :
    (m.write a b).read a' = m.read a' := by
  induction m with
  | nil => simp [Memory.write, Memory.read, Ne.symm h]
  | cons c rest ih =>
    obtain ⟨k, v⟩ := c
    simp only [Memory.write]
    split_ifs with h1 h2 <;> simp_all [Memory.read, eq_comm]

theorem Memory.mem_write {m : Memory} {a : Nat} {b : Byte} {c : Host.Cell} (h : c ∈ m.write a b) :
    c = (a, b) ∨ c ∈ m := by
  induction m with
  | nil => simpa [Memory.write] using h
  | cons d rest ih =>
    obtain ⟨k, v⟩ := d
    simp only [Memory.write] at h
    split_ifs at h <;> simp only [List.mem_cons] at h ⊢ <;> tauto

/-- A write keeps the canonical form. -/
theorem Memory.write_wf {m : Memory} {a : Nat} {b : Byte} (h : m.wf) (ha : a < 2 ^ 61) : (m.write a b).wf := by
  refine ⟨?_, fun c hc => ?_⟩
  · have hp := h.1
    clear h
    induction m with
    | nil => simp [Memory.write]
    | cons d rest ih =>
      obtain ⟨k, v⟩ := d
      rw [List.pairwise_cons] at hp
      simp only [Memory.write]
      split_ifs with h1 h2
      · refine List.pairwise_cons.2 ⟨fun c hc => ?_, List.pairwise_cons.2 hp⟩
        rcases List.mem_cons.1 hc with rfl | hc
        · exact h1
        · exact lt_trans h1 (hp.1 c hc)
      · subst h2; exact List.pairwise_cons.2 hp
      · refine List.pairwise_cons.2 ⟨fun c hc => ?_, ih hp.2⟩
        rcases Memory.mem_write hc with rfl | hc
        · show k < a; omega
        · exact hp.1 c hc
  · rcases Memory.mem_write hc with rfl | hc
    · exact ha
    · exact h.2 c hc

theorem Memory.readBytes_length {m : Memory} {k n : Nat} {bs : List Byte} (h : m.readBytes k n = .ok bs) :
    bs.length = n := by
  induction n generalizing k bs with
  | zero => simp_all [Memory.readBytes]
  | succ n ih =>
    rw [Memory.readBytes] at h
    split at h
    · cases h
    · split at h
      · cases h; simp [ih ‹_›]
      · cases h

/-- `MemRead` gives the bytes of the cells in ascending order (R12). -/
theorem Memory.readBytes_get {m : Memory} {k n : Nat} {bs : List Byte} (h : m.readBytes k n = .ok bs)
    (j : Nat) (hj : j < n) : m.read (k + j) = bs[j]? := by
  induction n generalizing k bs j with
  | zero => omega
  | succ n ih =>
    rw [Memory.readBytes] at h
    split at h
    · cases h
    · split at h
      · cases h
        cases j with
        | zero => simpa using ‹m.read k = _›
        | succ j =>
          have := ih ‹_› j (by omega)
          simpa [Nat.add_assoc, Nat.add_comm 1 j] using this
      · cases h

/-- `MemRead` stops only at a cell of its range that holds no byte (log 3). -/
theorem Memory.readBytes_error {m : Memory} {k n : Nat} {f : Fault} (h : m.readBytes k n = .error f) :
    ∃ a, k ≤ a ∧ a < k + n ∧ m.read a = none ∧ f = .noSuchElement (.msg a) := by
  induction n generalizing k with
  | zero => simp [Memory.readBytes] at h
  | succ n ih =>
    rw [Memory.readBytes] at h
    split at h
    · rename_i hk
      cases h
      exact ⟨k, le_rfl, by omega, hk, rfl⟩
    · split at h
      · cases h
      · rename_i hf
        cases h
        obtain ⟨a, h1, h2, h3, h4⟩ := ih hf
        exact ⟨a, by omega, by omega, h3, h4⟩

/-! ### Reset and the end of a call -/

/-- After reset CORE's own state is `State.reset`; what is HOST's or the instance's is untouched (R42, R210, R214). -/
theorem State.applyReset_eq (s : State) :
    s.applyReset =
      { State.reset with msg := s.msg, results := s.results, msgCap := s.msgCap, inputs := s.inputs } := rfl

/-- DISCARD leaves the state reset leaves, but for a request held in REQ (R177). -/
theorem State.discardCall_eq (s : State) :
    s.discardCall = { s.applyReset with req := s.req } := rfl

end Sys2Proof.Machine
end

