-- ==== Sys2Proof/Laws/Meanings.lean ====
section
/-! SUPPORT. One lemma for each meaning: everything it can answer with a next state, and nothing is refused. -/

namespace Sys2Proof.Machine

/-! ### Operands -/

theorem State.readW_eq_ok {s : State} {k : Nat} {x : Word} :
    s.readW k = .ok x ↔ ∃ hk : k < 64, s.w[k] = some x := by
  unfold State.readW
  by_cases hk : k < 64
  · simp [hk, need_eq_ok]
  · simp [hk]

/-- Reading a schedule word that holds novalue (R196). -/
theorem State.readW_of_none {s : State} {k : Nat} (hk : k < 64) (h : s.w[k] = none) :
    s.readW k = .error (.uninitRead (.w k)) := by
  simp [State.readW, hk, h]

/-- Reading a schedule word that holds a value. -/
theorem State.readW_of_ne_none {s : State} {k : Nat} (hk : k < 64) (h : s.w[k] ≠ none) :
    ∃ x, s.readW k = .ok x := by
  obtain ⟨x, hx⟩ := Option.ne_none_iff_exists'.1 h
  exact ⟨x, State.readW_eq_ok.2 ⟨hk, hx⟩⟩

theorem State.readBlk_eq_ok {s : State} {k : Nat} {b : Block} :
    s.readBlk k = .ok b ↔ ∃ blocks, s.blk = some blocks ∧ blocks[k]? = some b := by
  unfold State.readBlk
  cases hb : s.blk with
  | none => simp
  | some blocks => cases hk : blocks[k]? <;> simp [hk]

theorem readK_eq_ok {k : Nat} {x : Word} : readK k = .ok x ↔ ∃ hk : k < 64, kTable[k] = x := by
  unfold readK
  by_cases hk : k < 64
  · simp [hk]
  · simp [hk]

theorem State.expandWord_eq_ok {s : State} {t : Nat} {x : Word} :
    s.expandWord t = .ok x ↔ 16 ≤ t ∧ t ≤ 63 ∧ ∃ w2 w7 w15 w16, s.readW (t - 2) = .ok w2 ∧ s.readW (t - 7) = .ok w7 ∧
      s.readW (t - 15) = .ok w15 ∧ s.readW (t - 16) = .ok w16 ∧ x = scheduleWord w2 w7 w15 w16 := by
  unfold State.expandWord
  split_ifs with h
  · simp [bind_eq_ok, h.1, h.2, ok_eq_ok, -Except.ok.injEq]
  · simp; omega

theorem State.takeResult_eq_ok {s : State} {r : TakeResult} :
    s.takeResult = .ok r ↔
      (s.phase = Phase.done.code ∧ ∃ text bytes, s.hex = some text ∧ s.digestb = some bytes ∧
        r = .ok text (digestNumber bytes)) ∨
      (s.phase ≠ Phase.done.code ∧ r = .error s.errcode) := by
  unfold State.takeResult State.done State.inPhase
  by_cases h : s.phase = Phase.done.code <;> simp [h, bind_eq_ok, need_eq_ok, ok_eq_ok, -Except.ok.injEq]

/-! ### The meanings -/

theorem execHash_eq_next {n : Nat} {s s' : State} :
    execHash n s = .next s' ↔
      (s.req = none ∧ s' = { s with req := some ⟨BitVec.ofNat 64 n⟩ }) ∨ (s.req ≠ none ∧ s' = s) := by
  unfold execHash State.hashEnabled
  rw [whenEnabled_eq_next]
  cases s.req <;> simp [ok_eq_ok, -Except.ok.injEq]

theorem execTake_eq_next {s s' : State} :
    execTake s = .next s' ↔
      (s.takeEnabled = true ∧ ∃ r, s.takeResult = .ok r ∧
        s' = { s with results := s.results ++ [r], takeq := true }) ∨
      (s.takeEnabled = false ∧ s' = s) := by
  unfold execTake
  rw [whenEnabled_eq_next]
  simp [bind_eq_ok, ok_eq_ok, -Except.ok.injEq]

/-- Everything CREATE can do with a pending request (R120, R190). -/
theorem State.accept_eq_ok {s s' : State} {r : Request} :
    s.accept r = .ok s' ↔
      (Config.maxMsgBytes < r.length.toNat ∧ s' = s.raiseFault errLenOverflow) ∨
      (r.length.toNat ≤ Config.maxMsgBytes ∧ s.msgCap.val < r.length.toNat ∧ s' = s.raiseFault errCapacity) ∨
      (r.length.toNat ≤ s.msgCap.val ∧ ∃ m, s.msg.readBytes 0 r.length.toNat = .ok m ∧
        s' = { s with req := none, n := some r.length.toNat, mbuf := some m,
                      l := some (bitLength r.length.toNat) }.goto .pad) := by
  have hc : s.msgCap.val ≤ Config.maxMsgBytes := Nat.le_pred_of_lt s.msgCap.isLt
  unfold State.accept
  dsimp only
  split_ifs with h1 h2
  · have : ¬ r.length.toNat ≤ Config.maxMsgBytes := by omega
    have : ¬ r.length.toNat ≤ s.msgCap.val := by omega
    simp [*, ok_eq_ok, -Except.ok.injEq]
  · have : ¬ r.length.toNat ≤ s.msgCap.val := by omega
    simp [*, ok_eq_ok, -Except.ok.injEq]; omega
  · have : r.length.toNat ≤ s.msgCap.val := by omega
    have : ¬ s.msgCap.val < r.length.toNat := by omega
    simp [*, bind_eq_ok, ok_eq_ok, -Except.ok.injEq]

theorem execCreate_eq_next {s s' : State} :
    execCreate s = .next s' ↔
      (s.phase = Phase.idle.code ∧ ∃ r, s.req = some r ∧ s.accept r = .ok s') ∨
      ((s.phase ≠ Phase.idle.code ∨ s.req = none) ∧ s' = s) := by
  unfold execCreate
  cases s.req with
  | none => simp only [Host.Outcome.next.injEq]; simp [eq_comm (a := s)]
  | some r => simp [whenEnabled_eq_next, State.inPhase]

theorem execPad_eq_next {s s' : State} :
    execPad s = .next s' ↔
      (s.phase = Phase.pad.code ∧ ∃ n m l, s.n = some n ∧ s.mbuf = some m ∧ s.l = some l ∧
        s' = { s with z := some (zeroFill n), pbuf := some (paddedBytes m (zeroFill n) l) }.goto .parse) ∨
      (s.phase ≠ Phase.pad.code ∧ s' = s) := by
  unfold execPad
  simp [whenEnabled_eq_next, bind_eq_ok, need_eq_ok, State.inPhase, ok_eq_ok, -Except.ok.injEq]

theorem execParse_eq_next {s s' : State} :
    execParse s = .next s' ↔
      (s.phase = Phase.parse.code ∧ ∃ p, s.pbuf = some p ∧
        s' = { s with nblk := some (p.length / 64), blk := some (parseBlocks p) }.goto .hinit) ∨
      (s.phase ≠ Phase.parse.code ∧ s' = s) := by
  unfold execParse
  simp [whenEnabled_eq_next, bind_eq_ok, need_eq_ok, State.inPhase, ok_eq_ok, -Except.ok.injEq]

theorem execHinit_eq_next {s s' : State} :
    execHinit s = .next s' ↔
      (s.phase = Phase.hinit.code ∧ s' = { s with h := some iv, i := some 0 }.goto .schld) ∨
      (s.phase ≠ Phase.hinit.code ∧ s' = s) := by
  unfold execHinit
  simp [whenEnabled_eq_next, State.inPhase, ok_eq_ok, -Except.ok.injEq]

theorem execSchld_eq_next {s s' : State} :
    execSchld s = .next s' ↔
      (s.phase = Phase.schld.code ∧ ∃ i b, s.i = some i ∧ s.readBlk i = .ok b ∧
        s' = { s with w := loadSchedule b, t := some 16 }.goto .schexp) ∨
      (s.phase ≠ Phase.schld.code ∧ s' = s) := by
  unfold execSchld
  simp [whenEnabled_eq_next, bind_eq_ok, need_eq_ok, State.inPhase, ok_eq_ok, -Except.ok.injEq]

theorem execSchexp_eq_next {s s' : State} :
    execSchexp s = .next s' ↔
      (s.phase = Phase.schexp.code ∧ ∃ t x, s.t = some t ∧ s.expandWord t = .ok x ∧
        s' = if t = 63 then (s.writeW t x).goto .winit else { s.writeW t x with t := some (t + 1) }) ∨
      (s.phase ≠ Phase.schexp.code ∧ s' = s) := by
  unfold execSchexp
  simp [whenEnabled_eq_next, bind_eq_ok, need_eq_ok, State.inPhase, ok_eq_ok, -Except.ok.injEq]

theorem execWinit_eq_next {s s' : State} :
    execWinit s = .next s' ↔
      (s.phase = Phase.winit.code ∧ ∃ h, s.h = some h ∧
        s' = { s with work := some (workingOf h), t := some 0 }.goto .round) ∨
      (s.phase ≠ Phase.winit.code ∧ s' = s) := by
  unfold execWinit
  simp [whenEnabled_eq_next, bind_eq_ok, need_eq_ok, State.inPhase, ok_eq_ok, -Except.ok.injEq]

theorem execRound_eq_next {s s' : State} :
    execRound s = .next s' ↔
      (s.phase = Phase.round.code ∧ ∃ t r k w, s.t = some t ∧ s.work = some r ∧ readK t = .ok k ∧ s.readW t = .ok w ∧
        s' = if t = 63 then { s with work := some (roundStep r k w) }.goto .update
             else { s with work := some (roundStep r k w), t := some (t + 1) }) ∨
      (s.phase ≠ Phase.round.code ∧ s' = s) := by
  unfold execRound
  simp [whenEnabled_eq_next, bind_eq_ok, need_eq_ok, State.inPhase, ok_eq_ok, -Except.ok.injEq]

theorem execUpdate_eq_next {s s' : State} :
    execUpdate s = .next s' ↔
      (s.phase = Phase.update.code ∧ ∃ h r i blocks, s.h = some h ∧ s.work = some r ∧ s.i = some i ∧
        s.nblk = some blocks ∧
        s' = { s with h := some (addWorking h r), i := some (i + 1) }.goto
               (if i + 1 = blocks then .serialize else .schld)) ∨
      (s.phase ≠ Phase.update.code ∧ s' = s) := by
  unfold execUpdate
  simp [whenEnabled_eq_next, bind_eq_ok, need_eq_ok, State.inPhase, ok_eq_ok, -Except.ok.injEq]

theorem execSerialize_eq_next {s s' : State} :
    execSerialize s = .next s' ↔
      (s.phase = Phase.serialize.code ∧ ∃ h, s.h = some h ∧
        s' = { s with digestb := some (digestBytes h), hex := some (hexText (digestBytes h)) }.goto .done) ∨
      (s.phase ≠ Phase.serialize.code ∧ s' = s) := by
  unfold execSerialize
  simp [whenEnabled_eq_next, bind_eq_ok, need_eq_ok, State.inPhase, ok_eq_ok, -Except.ok.injEq]

theorem execDiscard_eq_next {f : Bool} {s s' : State} :
    execDiscard f s = .next s' ↔
      (s.discardEnabled f = true ∧ s' = s.discardCall) ∨ (s.discardEnabled f = false ∧ s' = s) := by
  unfold execDiscard
  simp [whenEnabled_eq_next, ok_eq_ok, -Except.ok.injEq]

/-- No meaning refuses: every operation of the table has its effect, waits, or stops with a named model fault. -/
theorem exec_ne_refused (i : Instr) (s : State) (r : Refusal) : exec i s ≠ .refused r := by
  cases i
  case create =>
    simp only [exec, execCreate]
    split
    · exact whenEnabled_ne_refused _ _ _ _
    · simp
  all_goals exact whenEnabled_ne_refused _ _ _ _

end Sys2Proof.Machine
end

