-- ==== Sys2Proof/Laws/Calls.lean ====
section
/-! SUPPORT. What the invariant's parts depend on, the schedule as it is written, and runs of several steps. -/

namespace Sys2Proof.Machine

/-! ### The invariant's parts depend on their own elements only -/

theorem State.Cleared.congr {s s' : State} (c : s.Cleared) (mbuf : s'.mbuf = s.mbuf) (n : s'.n = s.n) (l : s'.l = s.l)
    (pbuf : s'.pbuf = s.pbuf) (z : s'.z = s.z) (blk : s'.blk = s.blk) (nblk : s'.nblk = s.nblk) (w : s'.w = s.w)
    (work : s'.work = s.work) (h : s'.h = s.h) (digestb : s'.digestb = s.digestb) (hex : s'.hex = s.hex)
    (i : s'.i = s.i) (t : s'.t = s.t) : s'.Cleared :=
  ⟨mbuf.trans c.mbuf, n.trans c.n, l.trans c.l, pbuf.trans c.pbuf, z.trans c.z, blk.trans c.blk, nblk.trans c.nblk,
    w.trans c.w, work.trans c.work, h.trans c.h, digestb.trans c.digestb, hex.trans c.hex, i.trans c.i, t.trans c.t⟩

theorem State.Computing.congr {s s' : State} (c : s.Computing) (errcode : s'.errcode = s.errcode)
    (takeq : s'.takeq = s.takeq) (digestb : s'.digestb = s.digestb) (hex : s'.hex = s.hex) : s'.Computing :=
  ⟨errcode.trans c.errcode, takeq.trans c.takeq, digestb.trans c.digestb, hex.trans c.hex⟩

theorem State.Unstarted.congr {s s' : State} (u : s.Unstarted) (w : s'.w = s.w) (work : s'.work = s.work)
    (h : s'.h = s.h) (i : s'.i = s.i) (t : s'.t = s.t) : s'.Unstarted :=
  ⟨w.trans u.w, work.trans u.work, h.trans u.h, i.trans u.i, t.trans u.t⟩

theorem State.Received.congr {s s' : State} {m : List Byte} (r : s.Received m) (mbuf : s'.mbuf = s.mbuf)
    (n : s'.n = s.n) (l : s'.l = s.l) (msgCap : s'.msgCap = s.msgCap) : s'.Received m :=
  ⟨mbuf.trans r.mbuf, n.trans r.n, l.trans r.l, msgCap ▸ r.fits⟩

theorem State.Padded.congr {s s' : State} {m : List Byte} (r : s.Padded m) (mbuf : s'.mbuf = s.mbuf)
    (n : s'.n = s.n) (l : s'.l = s.l) (msgCap : s'.msgCap = s.msgCap) (pbuf : s'.pbuf = s.pbuf) (z : s'.z = s.z) :
    s'.Padded m :=
  ⟨r.toReceived.congr mbuf n l msgCap, pbuf.trans r.pbuf, z.trans r.z⟩

theorem State.Parsed.congr {s s' : State} {m : List Byte} (r : s.Parsed m) (mbuf : s'.mbuf = s.mbuf)
    (n : s'.n = s.n) (l : s'.l = s.l) (msgCap : s'.msgCap = s.msgCap) (pbuf : s'.pbuf = s.pbuf) (z : s'.z = s.z)
    (blk : s'.blk = s.blk) (nblk : s'.nblk = s.nblk) : s'.Parsed m :=
  ⟨r.toPadded.congr mbuf n l msgCap pbuf z, blk.trans r.blk, nblk.trans r.nblk⟩

theorem State.Scheduled.congr {s s' : State} {b : Block} {t : Nat} (h : s.Scheduled b t) (w : s'.w = s.w) :
    s'.Scheduled b t := by
  intro j hj
  simp only [w]
  exact h j hj

/-- The call does not depend on what HOST holds: a waiting request, MSG, what HOST keeps, the inputs. -/
theorem State.InCall.outside {s : State} (h : s.InCall) (req : Option Request) (msg : Memory)
    (results : List TakeResult) (inputs : List Input) :
    State.InCall { s with req := req, msg := msg, results := results, inputs := inputs } := by
  have at_block : ∀ {m k b}, s.AtBlock m k b →
      State.AtBlock { s with req := req, msg := msg, results := results, inputs := inputs } m k b := fun a =>
    ⟨a.parsed.congr rfl rfl rfl rfl rfl rfl rfl rfl, a.computing.congr rfl rfl rfl rfl, a.i, a.block, a.h⟩
  cases h with
  | idle phase c errcode takeq =>
    exact .idle phase (c.congr rfl rfl rfl rfl rfl rfl rfl rfl rfl rfl rfl rfl rfl rfl) errcode takeq
  | fault phase c errcode => exact .fault phase (c.congr rfl rfl rfl rfl rfl rfl rfl rfl rfl rfl rfl rfl rfl rfl) errcode
  | pad m phase r c u pbuf z blk nblk =>
    exact .pad m phase (r.congr rfl rfl rfl rfl) (c.congr rfl rfl rfl rfl) (u.congr rfl rfl rfl rfl rfl) pbuf z blk nblk
  | parse m phase r c u blk nblk =>
    exact .parse m phase (r.congr rfl rfl rfl rfl rfl rfl) (c.congr rfl rfl rfl rfl) (u.congr rfl rfl rfl rfl rfl) blk nblk
  | hinit m phase r c u =>
    exact .hinit m phase (r.congr rfl rfl rfl rfl rfl rfl rfl rfl) (c.congr rfl rfl rfl rfl) (u.congr rfl rfl rfl rfl rfl)
  | schld m k b phase a => exact .schld m k b phase (at_block a)
  | schexp m k b t phase a t_eq low high w => exact .schexp m k b t phase (at_block a) t_eq low high w
  | winit m k b phase a t_eq w => exact .winit m k b phase (at_block a) t_eq w
  | round m k b t phase a t_eq high w work => exact .round m k b t phase (at_block a) t_eq high w work
  | update m k b phase a t_eq w work => exact .update m k b phase (at_block a) t_eq w work
  | serialize m phase r c i t_eq h =>
    exact .serialize m phase (r.congr rfl rfl rfl rfl rfl rfl rfl rfl) (c.congr rfl rfl rfl rfl) i t_eq h
  | done m phase r errcode i t_eq h digestb hex =>
    exact .done m phase (r.congr rfl rfl rfl rfl rfl rfl rfl rfl) errcode i t_eq h digestb hex

/-! ### The schedule as SCHLD and SCHEXP write it -/

theorem loadSchedule_get (b : Block) (j : Nat) (hj : j < 64) :
    (loadSchedule b)[j] = if h : j < 16 then some b[j] else none := by
  split_ifs with h
  · simp [loadSchedule, h]
  · simp only [loadSchedule, Vector.getElem_mk, List.getElem_toArray]
    rw [List.getElem_append_right (by simpa using h)]
    exact List.getElem_replicate _

/-- SCHLD leaves the first sixteen words of the schedule written (R144). -/
theorem State.scheduled_load {s : State} {b : Block} (h : s.w = loadSchedule b) : s.Scheduled b 16 := by
  intro j hj
  simp only [h, loadSchedule_get]
  split_ifs with h
  · rw [schedule_block _ _ h]
  · rfl

/-- A word once written is read (R218, R219). -/
theorem State.Scheduled.readW {s : State} {b : Block} {t k : Nat} (h : s.Scheduled b t) (hk : k < t) (hk64 : k < 64) :
    s.readW k = .ok ((schedule b)[k]) :=
  State.readW_eq_ok.2 ⟨hk64, by simp [h k hk64, hk]⟩

/-- SCHEXP computes the next word of the schedule (R146). -/
theorem State.Scheduled.expandWord {s : State} {b : Block} {t : Nat} (h : s.Scheduled b t) (low : 16 ≤ t) (high : t ≤ 63) :
    s.expandWord t = .ok ((schedule b)[t]) :=
  State.expandWord_eq_ok.2 ⟨low, high, _, _, _, _, h.readW (by omega) (by omega), h.readW (by omega) (by omega),
    h.readW (by omega) (by omega), h.readW (by omega) (by omega), schedule_word b t low (by omega)⟩

/-- Writing the next word extends the schedule by one (R146). -/
theorem State.Scheduled.write {s s' : State} {b : Block} {t : Nat} (h : s.Scheduled b t) (high : t ≤ 63)
    (w : s'.w = (s.writeW t (schedule b)[t]).w) : s'.Scheduled b (t + 1) := by
  intro j hj
  simp only [w, State.writeW]
  rw [Vector.getElem_setIfInBounds]
  by_cases e : t = j
  · subst e; simp
  · simp only [e, if_false, h j hj]
    congr 1
    exact propext ⟨fun _ => by omega, fun _ => by omega⟩

/-! ### Blocks -/

theorem padAndParse_length_pos (m : List Byte) : 0 < (padAndParse m).length := by
  rw [padAndParse_length]; omega

theorem blockCount_eq (m : List Byte) : (padAndParse m).length = blockCount m.length := by
  rw [padAndParse_length, blockCount]

/-! ### Steps and runs -/

/-- The micro-operation each legal phase code selects (R30, R84). -/
@[simp] theorem decodePhase_code (p : Phase) :
    decodePhase p.code = .ok (match p with
      | .idle => .create | .pad => .pad | .parse => .parse | .hinit => .hinit | .schld => .schld | .schexp => .schexp
      | .winit => .winit | .round => .round | .update => .update | .serialize => .serialize
      | .done => .discard false | .fault => .discard true) := by
  cases p <;> rfl

@[simp] theorem runSteps_zero (s : State) : runSteps 0 s = .next s := rfl

/-- A run opens with its first step. -/
theorem runSteps_succ {k : Nat} {s t : State} (h : step s = .next t) : runSteps (k + 1) s = runSteps k t := by
  rw [runSteps, h]

/-- A run of `a + b` steps is a run of `a` and then of `b`. -/
theorem runSteps_add {a b : Nat} {s t : State} (h : runSteps a s = .next t) : runSteps (a + b) s = runSteps b t := by
  induction a generalizing s with
  | zero => cases h; rw [Nat.zero_add]
  | succ a ih =>
    rw [Nat.succ_add, Nat.succ_eq_add_one, runSteps]
    rw [runSteps] at h
    cases hs : step s with
    | next s' => rw [hs] at h; exact ih h
    | fault f => rw [hs] at h; cases h
    | refused r => rw [hs] at h; cases h

/-- One unfolding of the host's run, for any machine. -/
theorem host_run_succ (M : Host.Core) (k : Nat) (s : M.State) :
    M.run (k + 1) s = match M.step s with
      | .next t => M.run k t
      | .fault f => .fault f
      | .refused r => .refused r := rfl

/-- The host's run of the machine is `runSteps`. -/
theorem core_run (k : Nat) (s : State) : Host.Core.run core k s = runSteps k s := by
  induction k generalizing s with
  | zero => rfl
  | succ k ih =>
    have e : core.step s = step s := rfl
    refine (host_run_succ core k s).trans ?_
    rw [runSteps, e]
    cases step s with
    | next t => exact ih t
    | fault f => rfl
    | refused r => rfl

end Sys2Proof.Machine
end

