-- ==== Sys2Proof/Laws/PerInstr.lean ====
section
/-! SUPPORT. One fact for every operation: its code is one that its row of the opcode table matches (R85). -/

namespace Sys2Proof.Laws.EncodingMatchesRow

/-- A row of the opcode table: the width of the code, the bits that are compared, and what they must be. -/
structure Row where
  width : Nat
  mask : Nat
  bits : Nat
  deriving DecidableEq, Repr

/-- The rows as R85 prints them. -/
def row : Instr → Row
  | .hash _ => ⟨2, 0x3, 0x1⟩
  | .take => ⟨2, 0x3, 0x2⟩
  | .create => ⟨4, 0xf, 0x0⟩
  | .pad => ⟨4, 0xf, 0x1⟩
  | .parse => ⟨4, 0xf, 0x2⟩
  | .hinit => ⟨4, 0xf, 0x3⟩
  | .schld => ⟨4, 0xf, 0x4⟩
  | .schexp => ⟨4, 0xf, 0x5⟩
  | .winit => ⟨4, 0xf, 0x6⟩
  | .round => ⟨4, 0xf, 0x7⟩
  | .update => ⟨4, 0xf, 0x8⟩
  | .serialize => ⟨4, 0xf, 0x9⟩
  | .discard _ => ⟨4, 0xe, 0xa⟩

/-- The whole table, thirteen rows. -/
def table : List Row :=
  [row (.hash 0), row .take, row .create, row .pad, row .parse, row .hinit, row .schld, row .schexp, row .winit,
   row .round, row .update, row .serialize, row (.discard false)]

/-- Whether a code has the row's width and the row's bits. -/
def Row.matches (r : Row) : Encoded → Bool
  | .h cmd _ => r.width == 2 && cmd.toNat &&& r.mask == r.bits
  | .u code => r.width == 4 && code.toNat &&& r.mask == r.bits

/-- The operation's code is matched by its own row, and by no row of another mnemonic. -/
def Statement (i : Instr) : Prop :=
  row i ∈ table ∧ ∀ r ∈ table, r.matches (encode i) = true ↔ r = row i

theorem hash (length : Nat) : Statement (.hash length) := by
  simp [Statement, table, row, Row.matches, encode]

theorem take : Statement .take := by
  unfold Statement; decide

theorem create : Statement .create := by
  unfold Statement; decide

theorem pad : Statement .pad := by
  unfold Statement; decide

theorem parse : Statement .parse := by
  unfold Statement; decide

theorem hinit : Statement .hinit := by
  unfold Statement; decide

theorem schld : Statement .schld := by
  unfold Statement; decide

theorem schexp : Statement .schexp := by
  unfold Statement; decide

theorem winit : Statement .winit := by
  unfold Statement; decide

theorem round : Statement .round := by
  unfold Statement; decide

theorem update : Statement .update := by
  unfold Statement; decide

theorem serialize : Statement .serialize := by
  unfold Statement; decide

theorem discard (f : Bool) : Statement (.discard f) := by
  cases f <;> (unfold Statement; decide)

end Sys2Proof.Laws.EncodingMatchesRow
end

