-- ==== Sys2Proof/Tests/Slice0.lean ====
section
/-! SUPPORT. The model's own tests. Expected values come from the spec's encodings and its vectors V1 to V47
(`95_test_vectors.md`), and for each statement with hypotheses a theorem `witness_…` shows values that meet them. -/

namespace Sys2Proof.Tests

open Sys2Proof.Machine

/-! ### Helpers -/

/-- The next state of an outcome, if it has one. -/
def after : Host.Outcome State Fault Refusal → Option State
  | .next t => some t
  | .fault _ => none
  | .refused _ => none

/-- The fault of an outcome, if it is one. -/
def faultOf : Host.Outcome State Fault Refusal → Option Fault
  | .next _ => none
  | .fault f => some f
  | .refused _ => none

/-- The reset state in another phase. -/
def at_ (code : BitVec 4) : State := { State.reset with phase := code }

/-- The message "abc" in MSG. -/
def abcMsg : Memory := [(0, 0x61#8), (1, 0x62#8), (2, 0x63#8)]

/-- IDLE with a request for the first `n` bytes of "abc". -/
def pending (n : BitVec 64) : State := { State.reset with msg := abcMsg, req := some ⟨n⟩ }

/-- An instance that admits three bytes. -/
def capThree (n : BitVec 64) : State := { pending n with msgCap := 3 }

/-- The block of "abc" (V2). -/
def abcBlock : Block :=
  #v[0x61626380#32, 0#32, 0#32, 0#32, 0#32, 0#32, 0#32, 0#32, 0#32, 0#32, 0#32, 0#32, 0#32, 0#32, 0#32, 0x00000018#32]

/-- The digest of "abc" (V22). -/
def abcDigest : Vector Word 8 :=
  #v[0xba7816bf#32, 0x8f01cfea#32, 0x414140de#32, 0x5dae2223#32, 0xb00361a3#32, 0x96177a9c#32, 0xb410ff61#32, 0xf20015ad#32]

/-- The working registers after round 63 of "abc" (V21). -/
def abcWork : Working :=
  ⟨0x506e3058#32, 0xd39a2165#32, 0x04d24d6c#32, 0xb85e2ce9#32, 0x5ef50f24#32, 0xfb121210#32, 0x948d25b6#32, 0x961f4894#32⟩

/-- The working registers after round 62 of "abc" (V21). -/
def abcWork62 : Working :=
  ⟨0xd39a2165#32, 0x04d24d6c#32, 0xb85e2ce9#32, 0xb6ae8fff#32, 0xfb121210#32, 0x948d25b6#32, 0x961f4894#32, 0xb21bad3d#32⟩

/-- SCHEXP at step `t` with the block of "abc" loaded. -/
def atSchexp (t : Nat) : State := { at_ 0b0101#4 with w := loadSchedule abcBlock, t := some t }

/-- The schedule words SCHEXP reads at `t = 63` (V20). -/
def lastSchexp : State :=
  { at_ 0b0101#4 with
    t := some 63
    w := (((State.reset.w.set 61 (some 0x668b2ff8#32)).set 56 (some 0xef57b9cd#32)).set 48 (some 0xfb3e89cb#32)).set 47
      (some 0x065c43da#32) }

/-- ROUND at step 0 of "abc". -/
def firstRound : State := { at_ 0b0111#4 with w := loadSchedule abcBlock, t := some 0, work := some (workingOf iv) }

/-- ROUND at step 63 of "abc". -/
def lastRound : State :=
  { at_ 0b0111#4 with w := State.reset.w.set 63 (some 0x12b1edeb#32), t := some 63, work := some abcWork62 }

/-- UPDATE after the rounds of "abc", in a message of `n` blocks. -/
def atUpdate (n : Nat) : State :=
  { at_ 0b1000#4 with h := some iv, work := some abcWork, i := some 0, nblk := some n }

/-- DONE with the outputs of "abc". -/
def doneState : State :=
  { at_ 0b1010#4 with digestb := some (digestBytes abcDigest), hex := some (hexText (digestBytes abcDigest)) }

/-- FAULT with the capacity code. -/
def faultState : State := { at_ 0b1011#4 with errcode := 2#4 }

theorem idle_inv : (pending 9#64).Inv :=
  ⟨⟨by decide, by decide⟩, .idle rfl ⟨rfl, rfl, rfl, rfl, rfl, rfl, rfl, rfl, rfl, rfl, rfl, rfl, rfl, rfl⟩ rfl rfl⟩

theorem fault_inv : faultState.Inv :=
  ⟨⟨.nil, fun _ h => by cases h⟩, .fault rfl ⟨rfl, rfl, rfl, rfl, rfl, rfl, rfl, rfl, rfl, rfl, rfl, rfl, rfl, rfl⟩ (.inr rfl)⟩

/-! ### WellFormed and Decode -/

/-- LENGTH is 64 bits (R81). -/
theorem test_wf_refuses_length : (Instr.hash (2 ^ 64)).wf = false := by decide

theorem test_wf_admits_length : (Instr.hash (2 ^ 64 - 1)).wf = true := by decide

/-- Format H, R81: command `01`, LENGTH all 64 bits. -/
theorem test_decode_hash :
    decode (.h 0b01#2 0b1000000000000000000000000000000000000000000000000000000000000011#64) = .ok (.hash (2 ^ 63 + 3)) := rfl

theorem test_decode_take : decode (.h 0b10#2 0#64) = .ok .take := rfl
theorem test_decode_create : decode (.u 0b0000#4) = .ok .create := rfl
theorem test_decode_pad : decode (.u 0b0001#4) = .ok .pad := rfl
theorem test_decode_parse : decode (.u 0b0010#4) = .ok .parse := rfl
theorem test_decode_hinit : decode (.u 0b0011#4) = .ok .hinit := rfl
theorem test_decode_schld : decode (.u 0b0100#4) = .ok .schld := rfl
theorem test_decode_schexp : decode (.u 0b0101#4) = .ok .schexp := rfl
theorem test_decode_winit : decode (.u 0b0110#4) = .ok .winit := rfl
theorem test_decode_round : decode (.u 0b0111#4) = .ok .round := rfl
theorem test_decode_update : decode (.u 0b1000#4) = .ok .update := rfl
theorem test_decode_serialize : decode (.u 0b1001#4) = .ok .serialize := rfl
theorem test_decode_discard_done : decode (.u 0b1010#4) = .ok (.discard false) := rfl
theorem test_decode_discard_fault : decode (.u 0b1011#4) = .ok (.discard true) := rfl

/-- The opcode table's words, by the width of their code (R85). -/
theorem test_table_words :
    decodeTableWord 2 0b01 = some (.hash 0) ∧ decodeTableWord 2 0b11 = none ∧
    decodeTableWord 4 0b1011 = some (.discard true) ∧ decodeTableWord 4 0b1100 = none := by decide

/-- A word placed after reset is what the next step runs: HASH, and HINIT with phase `0011`. -/
theorem test_placed_words_run :
    (after (step (State.reset.withFetchWord 2 0b01))).map (fun t => t.req) = some (some ⟨0#64⟩) ∧
    (after (step (State.reset.withFetchWord 4 0b0011))).map (fun t => t.h) = some (some iv) := ⟨rfl, rfl⟩

/-! ### One step of each operation -/

/-- R170: the request holds LENGTH. -/
theorem test_hash : (after (exec (.hash 3) State.reset)).map (fun t => t.req) = some (some ⟨3#64⟩) := rfl

/-- R170: with REQ full HOST waits. -/
theorem test_hash_waits : (after (exec (.hash 5) (pending 3#64))).map (fun t => t.req) = some (some ⟨3#64⟩) := rfl

/-- V23: what TAKE returns for "abc". -/
theorem test_take :
    (after (exec .take doneState)).map (fun t => (t.takeq, t.results.map fun r => match r with
      | .ok _ d => d | .error _ => 0#256)) =
    some (true, [0xba7816bf8f01cfea414140de5dae2223b00361a396177a9cb410ff61f20015ad#256]) := by decide +kernel

/-- V43: TAKE returns `Error(2)`. -/
theorem test_take_error : (after (exec .take faultState)).map (fun t => t.results) = some [.error 2#4] := rfl

/-- V2: CREATE with "abc". -/
theorem test_create :
    (after (exec .create (pending 3#64))).map (fun t => (t.n, t.l, t.mbuf)) =
      some (some 3, some 0x18#64, some [0x61#8, 0x62#8, 0x63#8]) := rfl

/-- V40: LENGTH 2^61. -/
theorem test_create_overflow :
    (after (exec .create (pending 0x2000000000000000#64))).map (fun t => (t.phase, t.errcode, t.n, t.req)) =
      some (0b1011#4, 1#4, none, none) := by decide

/-- V2: the padding of "abc". -/
theorem test_pad :
    (after (exec .pad { at_ 0b0001#4 with n := some 3, mbuf := some [0x61#8, 0x62#8, 0x63#8], l := some 0x18#64 })).map
      (fun t => (t.z, t.pbuf.map fun p => (p.length, p.take 4, p.drop 55))) =
    some (some 52, some (64, [0x61#8, 0x62#8, 0x63#8, 0x80#8], [0#8, 0#8, 0#8, 0#8, 0#8, 0#8, 0#8, 0#8, 0x18#8])) := by
  decide +kernel

/-- V31, V38: the spill at 56 bytes, and a length field that needs more than 32 bits. -/
theorem test_pad_spill :
    (after (exec .pad { at_ 0b0001#4 with n := some 56, mbuf := some [], l := some 0x800000028#64 })).map
      (fun t => (t.z, t.pbuf.map fun p => p.drop 64)) =
    some (some 63, some [0#8, 0#8, 0#8, 0x08#8, 0#8, 0#8, 0#8, 0x28#8]) := by decide +kernel

/-- V37b: a byte above `7f` is zero-extended, and the first byte is the most significant. -/
theorem test_parse :
    (after (exec .parse { at_ 0b0010#4 with pbuf := some ([0xff#8, 0x80#8] ++ List.replicate 61 0#8 ++ [8#8]) })).map
      (fun t => (t.nblk, t.blk.map fun bs => bs.map fun b => (b[0], b[15]))) =
    some (some 1, some [(0xff800000#32, 8#32)]) := by decide +kernel

/-- V34b: 128 bytes are two blocks. -/
theorem test_parse_two :
    (after (exec .parse { at_ 0b0010#4 with pbuf := some (List.replicate 64 0x61#8 ++ [0x80#8] ++ List.replicate 63 0#8) })).map
      (fun t => (t.nblk, t.blk.map fun bs => bs.map fun b => b[0])) =
    some (some 2, some [0x61616161#32, 0x80000000#32]) := by decide +kernel

/-- V18: `IV[0]` and `IV[7]`. -/
theorem test_hinit :
    (after (exec .hinit (at_ 0b0011#4))).map (fun t => (t.h.map fun h => (h[0], h[7]), t.i, t.phase)) =
      some (some (0x6a09e667#32, 0x5be0cd19#32), some 0, 0b0100#4) := rfl

/-- V20: the block verbatim, then novalue. -/
theorem test_schld :
    (after (exec .schld { at_ 0b0100#4 with i := some 0, blk := some [abcBlock] })).map
      (fun t => (t.w[0], t.w[15], t.w[16], t.w[63], t.t)) =
    some (some 0x61626380#32, some 0x18#32, none, none, some 16) := by decide +kernel

/-- V20: `W[17] = 000f0000`. -/
theorem test_schexp :
    (after (exec .schexp (atSchexp 17))).map (fun t => (t.w[17], t.t, t.phase)) =
      some (some 0x000f0000#32, some 18, 0b0101#4) := by decide +kernel

/-- V20: `W[63] = 12b1edeb`, and the schedule is complete. -/
theorem test_schexp_last :
    (after (exec .schexp lastSchexp)).map (fun t => (t.w[63], t.t, t.phase)) =
      some (some 0x12b1edeb#32, some 63, 0b0110#4) := by decide +kernel

/-- V21: the registers before round 0. -/
theorem test_winit :
    (after (exec .winit { at_ 0b0110#4 with h := some abcDigest })).map (fun t => (t.work.map fun r => (r.a, r.h), t.t)) =
      some (some (0xba7816bf#32, 0xf20015ad#32), some 0) := rfl

/-- V21, round 0. -/
theorem test_round :
    (after (exec .round firstRound)).map (fun t => (t.work, t.t, t.phase)) =
      some (some ⟨0x5d6aebcd#32, 0x6a09e667#32, 0xbb67ae85#32, 0x3c6ef372#32, 0xfa2a4622#32, 0x510e527f#32, 0x9b05688c#32,
        0x1f83d9ab#32⟩, some 1, 0b0111#4) := by decide +kernel

/-- V21, round 63. -/
theorem test_round_last :
    (after (exec .round lastRound)).map (fun t => (t.work, t.t, t.phase)) =
      some (some abcWork, some 63, 0b1000#4) := by decide +kernel

/-- V22: the digest after the only block. -/
theorem test_update :
    (after (exec .update (atUpdate 1))).map (fun t => (t.h, t.i, t.phase)) =
      some (some abcDigest, some 1, 0b1001#4) := by decide +kernel

/-- V24: with another block to come the next phase is SCHLD. -/
theorem test_update_more : (after (exec .update (atUpdate 2))).map (fun t => t.phase) = some 0b0100#4 := by decide +kernel

/-- V23: the first and last bytes and characters. -/
theorem test_serialize :
    (after (exec .serialize { at_ 0b1001#4 with h := some abcDigest })).map
      (fun t => (t.digestb.map fun d => (d[0], d[31]), t.hex.map fun x => (x[0], x[1], x[2], x[3], x[63]))) =
    some (some (0xba#8, 0xad#8), some (0x62#8, 0x61#8, 0x37#8, 0x38#8, 0x64#8)) := by decide +kernel

/-- R177: from FAULT, the request that waits survives. -/
theorem test_discard :
    (after (exec (.discard true) { faultState with takeq := true, req := some ⟨3#64⟩ })).map
      (fun t => (t.phase, t.errcode, t.takeq, t.req)) =
    some (0b0000#4, 0#4, false, some ⟨3#64⟩) := rfl

/-- R171: without TAKE, CORE stays in DONE. -/
theorem test_discard_waits : (after (exec (.discard false) doneState)).map (fun t => t.phase) = some 0b1010#4 := rfl

/-! ### Known answers: the check R112 asks for. Each word of IV and of K enters both digests. -/

/-- The ASCII codes of a text. -/
def ascii (text : String) : List Byte := text.toList.map fun c => BitVec.ofNat 8 c.toNat

/-- V1: the source's digest of the empty message. -/
theorem test_known_answer_empty :
    (hashText []).toList = ascii "e3b0c44298fc1c149afbf4c8996fb92427ae41e4649b934ca495991b7852b855" := by decide +kernel

/-- V2: the source's digest of "abc". -/
theorem test_known_answer_abc :
    (hashText [0x61#8, 0x62#8, 0x63#8]).toList = ascii "ba7816bf8f01cfea414140de5dae2223b00361a396177a9cb410ff61f20015ad" := by
  decide +kernel

/-! ### Witnesses: values that meet the hypotheses of the statements -/

theorem witness_encoding :
    (Instr.hash (2 ^ 64 - 1)).wf = true ∧ decode (.h 0b01#2 5#64) = .ok (.hash 5) ∧ decode (.u 0b1001#4) = .ok .serialize ∧
    12 ≤ (12#4).toNat ∧ 12 ≤ (15#4).toNat := ⟨by decide, rfl, rfl, by decide, by decide⟩

theorem witness_step_core : (at_ 0b0011#4).inputs = [] ∧ decode (.u (at_ 0b0011#4).phase) = .ok .hinit := ⟨rfl, rfl⟩

theorem witness_step_host :
    let s := { State.reset with inputs := [.command 0b01#2 3#64] }
    s.inputs = .command 0b01#2 3#64 :: [] ∧ decode (.h 0b01#2 3#64) = .ok (.hash 3) ∧ s.hostEnabled (.hash 3) = true :=
  ⟨rfl, rfl, rfl⟩

theorem witness_turn :
    let s := { State.reset with inputs := [.command 0b10#2 0#64] }
    s.inputs = .command 0b10#2 0#64 :: [] ∧ decode (.h 0b10#2 0#64) = .ok .take ∧ s.hostEnabled .take = false ∧
      decode (.u s.phase) = .ok .create := ⟨rfl, rfl, rfl, rfl⟩

theorem witness_other_inputs :
    { State.reset with inputs := [.command 0b00#2 0#64] }.inputs = .command 0b00#2 0#64 :: [] ∧
    { State.reset with inputs := [.command 0b11#2 0#64] }.inputs = .command 0b11#2 0#64 :: [] ∧
    { State.reset with inputs := [.store 0#61 7#8] }.inputs = .store 0#61 7#8 :: [] ∧
    { State.reset with inputs := [.reset] }.inputs = Input.reset :: [] ∧
    decode (.u State.reset.phase) = .ok .create := ⟨rfl, rfl, rfl, rfl, rfl⟩

theorem witness_illegal_phase : (at_ 12#4).inputs = [] ∧ 12 ≤ (at_ 12#4).phase.toNat ∧ 12 ≤ (at_ 15#4).phase.toNat := by
  decide

theorem witness_invariant : (pending 9#64).Inv ∧ faultState.Inv := ⟨idle_inv, fault_inv⟩

theorem witness_waits :
    State.reset.phase = 0b0000#4 ∧ State.reset.req = none ∧ (at_ 0b1010#4).takeq = false ∧ (at_ 0b1011#4).takeq = false ∧
    (at_ 0b0001#4).phase ≠ 0b0000#4 ∧ (pending 3#64).req ≠ none := by decide

/-- A step that moves the phase, and one that enters FAULT. -/
theorem witness_moves :
    exec .hinit (at_ 0b0011#4) = .next ({ at_ 0b0011#4 with h := some iv, i := some 0 }.goto .schld) ∧
    exec .create (capThree 4#64) = .next ((capThree 4#64).raiseFault 2#4) ∧
    ((capThree 4#64).raiseFault 2#4).phase = 0b1011#4 ∧ (capThree 4#64).phase ≠ 0b1011#4 :=
  ⟨rfl, rfl, rfl, by decide⟩

theorem witness_take :
    doneState.takeq = false ∧ doneState.phase = 0b1010#4 ∧ doneState.hex = some (hexText (digestBytes abcDigest)) ∧
    doneState.digestb = some (digestBytes abcDigest) ∧ faultState.takeq = false ∧ faultState.phase = 0b1011#4 ∧
    (State.reset.phase ≠ 0b1010#4 ∧ State.reset.phase ≠ 0b1011#4) ∧ { doneState with takeq := true }.takeq = true :=
  ⟨rfl, rfl, rfl, rfl, rfl, rfl, by decide, rfl⟩

theorem witness_discard :
    { doneState with takeq := true }.phase = (if false then 0b1011#4 else 0b1010#4) ∧
    { faultState with takeq := true }.phase = (if true then 0b1011#4 else 0b1010#4) ∧
    { doneState with takeq := true }.takeq = true ∧ { faultState with takeq := true }.takeq = true := ⟨rfl, rfl, rfl, rfl⟩

/-- Admitted requests: of no byte, of some, and of as many as the instance takes. -/
theorem witness_admits :
    (pending 0#64).Admits ⟨0#64⟩ [] ∧ (pending 3#64).Admits ⟨3#64⟩ [0x61#8, 0x62#8, 0x63#8] ∧
    (capThree 3#64).Admits ⟨3#64⟩ [0x61#8, 0x62#8, 0x63#8] ∧ (pending 3#64).phase = 0b0000#4 ∧
    (pending 3#64).inputs = [] :=
  ⟨⟨rfl, by decide, rfl⟩, ⟨rfl, by decide, rfl⟩, ⟨rfl, by decide, rfl⟩, rfl, rfl⟩

theorem witness_length_faults :
    (pending 0x2000000000000000#64).req = some ⟨0x2000000000000000#64⟩ ∧ 2 ^ 61 ≤ (0x2000000000000000#64).toNat ∧
    2 ^ 61 ≤ (0xffffffffffffffff#64).toNat ∧
    (capThree 4#64).req = some ⟨4#64⟩ ∧ (4#64).toNat ≤ 2 ^ 61 - 1 ∧ (capThree 4#64).msgCap.val < (4#64).toNat ∧
    (capThree 0x1fffffffffffffff#64).msgCap.val < (0x1fffffffffffffff#64).toNat ∧
    (0x1fffffffffffffff#64).toNat ≤ 2 ^ 61 - 1 := by decide

/-- The largest admitted length. -/
theorem witness_bit_length : 2 ^ 61 - 1 ≤ 2 ^ 61 - 1 := le_rfl

theorem witness_missing_byte :
    (pending 9#64).phase = 0b0000#4 ∧ (pending 9#64).req = some ⟨9#64⟩ ∧ (9#64).toNat ≤ (pending 9#64).msgCap.val ∧
    3 < (9#64).toNat ∧ (∀ j, j < 3 → (pending 9#64).msg.read j ≠ none) ∧ (pending 9#64).msg.read 3 = none := by decide

theorem witness_step_from_invariant : faultState.Inv ∧ step faultState = .next faultState := ⟨fault_inv, rfl⟩

theorem witness_no_step_reads_novalue :
    (pending 9#64).Inv ∧ step (pending 9#64) = .fault (.noSuchElement (.msg 3)) := ⟨idle_inv, rfl⟩

theorem witness_pad :
    let s := { at_ 0b0001#4 with n := some 0, mbuf := some [], l := some 0#64 }
    s.phase = 0b0001#4 ∧ s.n = some 0 ∧ s.mbuf = some [] ∧ s.l = some 0#64 := ⟨rfl, rfl, rfl, rfl⟩

theorem witness_parse :
    let s := { at_ 0b0010#4 with pbuf := some (List.replicate 64 0#8) }
    s.phase = 0b0010#4 ∧ s.pbuf = some (List.replicate 64 0#8) ∧ 0 < (List.replicate 64 0#8).length / 64 ∧
      (List.replicate 64 0#8).length % 64 = 0 := ⟨rfl, rfl, by decide, rfl⟩

theorem witness_schld :
    let s := { at_ 0b0100#4 with i := some 0, blk := some [abcBlock] }
    s.phase = 0b0100#4 ∧ s.i = some 0 ∧ s.blk = some [abcBlock] ∧ [abcBlock][0]? = some abcBlock ∧
      [abcBlock].length ≤ 1 := ⟨rfl, rfl, rfl, rfl, le_rfl⟩

theorem witness_schexp :
    (atSchexp 16).phase = 0b0101#4 ∧ (atSchexp 16).t = some 16 ∧ (atSchexp 16).w[14] = some 0#32 ∧
    (atSchexp 16).w[9] = some 0#32 ∧ (atSchexp 16).w[1] = some 0#32 ∧ (atSchexp 16).w[0] = some 0x61626380#32 ∧
    lastSchexp.t = some 63 ∧ lastSchexp.w[61] = some 0x668b2ff8#32 ∧ lastSchexp.w[56] = some 0xef57b9cd#32 ∧
    lastSchexp.w[48] = some 0xfb3e89cb#32 ∧ lastSchexp.w[47] = some 0x065c43da#32 ∧
    (atSchexp 15).t = some 15 ∧ (atSchexp 64).t = some 64 := by decide +kernel

theorem witness_winit : { at_ 0b0110#4 with h := some iv }.phase = 0b0110#4 ∧
    { at_ 0b0110#4 with h := some iv }.h = some iv := ⟨rfl, rfl⟩

theorem witness_round :
    firstRound.phase = 0b0111#4 ∧ firstRound.t = some 0 ∧ firstRound.work = some (workingOf iv) ∧
    firstRound.w[0] = some 0x61626380#32 ∧ lastRound.t = some 63 ∧ lastRound.work = some abcWork62 ∧
    lastRound.w[63] = some 0x12b1edeb#32 ∧ { firstRound with t := some 64 }.t = some 64 := by decide +kernel

theorem witness_update :
    (atUpdate 1).phase = 0b1000#4 ∧ (atUpdate 1).h = some iv ∧ (atUpdate 1).work = some abcWork ∧
    (atUpdate 1).i = some 0 ∧ (atUpdate 1).nblk = some 1 ∧ (atUpdate 2).nblk = some 2 := ⟨rfl, rfl, rfl, rfl, rfl, rfl⟩

theorem witness_serialize : { at_ 0b1001#4 with h := some abcDigest }.phase = 0b1001#4 ∧
    { at_ 0b1001#4 with h := some abcDigest }.h = some abcDigest := ⟨rfl, rfl⟩

/-- PAD, PARSE, SCHLD: each element in turn holds novalue, those read before it a value. -/
theorem witness_novalue_preprocessor :
    let p := { at_ 0b0001#4 with n := some 3 }
    let q := { p with mbuf := some [] }
    let b := { at_ 0b0100#4 with i := some 0 }
    (at_ 0b0001#4).n = none ∧ (p.n ≠ none ∧ p.mbuf = none) ∧ (q.n ≠ none ∧ q.mbuf ≠ none ∧ q.l = none) ∧
      (at_ 0b0010#4).pbuf = none ∧ (at_ 0b0100#4).i = none ∧ (b.i ≠ none ∧ b.blk = none) := by decide +kernel

/-- The schedule words SCHEXP reads at `t`, the first `n` of the four written. -/
def partSchedule (t n : Nat) : State :=
  { at_ 0b0101#4 with
    t := some t
    w := (([t - 2, t - 7, t - 15].take n).foldl (fun w k => w.setIfInBounds k (some 0#32)) State.reset.w) }

/-- SCHEXP at `t = 16` and `t = 63`: each of the four words in turn holds novalue. -/
theorem witness_novalue_schexp :
    (at_ 0b0101#4).t = none ∧
    (partSchedule 16 0).w[14] = none ∧ (partSchedule 63 0).w[61] = none ∧
    ((partSchedule 16 1).w[14] ≠ none ∧ (partSchedule 16 1).w[9] = none) ∧
    ((partSchedule 63 1).w[61] ≠ none ∧ (partSchedule 63 1).w[56] = none) ∧
    ((partSchedule 16 2).w[14] ≠ none ∧ (partSchedule 16 2).w[9] ≠ none ∧ (partSchedule 16 2).w[1] = none) ∧
    ((partSchedule 63 2).w[61] ≠ none ∧ (partSchedule 63 2).w[56] ≠ none ∧ (partSchedule 63 2).w[48] = none) ∧
    ((partSchedule 16 3).w[14] ≠ none ∧ (partSchedule 16 3).w[9] ≠ none ∧ (partSchedule 16 3).w[1] ≠ none ∧
      (partSchedule 16 3).w[0] = none) ∧
    ((partSchedule 63 3).w[61] ≠ none ∧ (partSchedule 63 3).w[56] ≠ none ∧ (partSchedule 63 3).w[48] ≠ none ∧
      (partSchedule 63 3).w[47] = none) := by decide +kernel

/-- WINIT, ROUND (`t = 0` and `t = 63`), UPDATE, SERIALIZE. -/
theorem witness_novalue_compressor :
    let r := { at_ 0b0111#4 with t := some 0 }
    let u := { at_ 0b1000#4 with h := some iv }
    let v := { u with work := some abcWork }
    let x := { v with i := some 0 }
    (at_ 0b0110#4).h = none ∧ (at_ 0b0111#4).t = none ∧ (r.t ≠ none ∧ r.work = none) ∧
      (firstRound.work ≠ none ∧ { firstRound with w := State.reset.w }.w[0] = none) ∧
      (lastRound.work ≠ none ∧ { lastRound with w := State.reset.w }.w[63] = none) ∧
      (at_ 0b1000#4).h = none ∧ (u.h ≠ none ∧ u.work = none) ∧ (v.h ≠ none ∧ v.work ≠ none ∧ v.i = none) ∧
      (x.h ≠ none ∧ x.work ≠ none ∧ x.i ≠ none ∧ x.nblk = none) ∧ (at_ 0b1001#4).h = none := by decide +kernel

/-- TAKE in DONE, without the outputs. -/
theorem witness_novalue_take :
    let d := at_ 0b1010#4
    let e := { d with hex := doneState.hex }
    (d.takeq = false ∧ d.hex = none) ∧ (e.takeq = false ∧ e.hex ≠ none ∧ e.digestb = none) := by decide +kernel

/-- One next state for each operation whose frame is stated. -/
theorem witness_frames :
    exec (.hash 3) State.reset = .next (pending 3#64 |> fun s => { s with msg := [] }) ∧
    exec .take faultState = .next { faultState with takeq := true, results := [.error 2#4] } ∧
    exec .create State.reset = .next State.reset ∧ exec .pad State.reset = .next State.reset ∧
    exec .parse State.reset = .next State.reset ∧ exec .hinit State.reset = .next State.reset ∧
    exec .schld State.reset = .next State.reset ∧ exec .schexp State.reset = .next State.reset ∧
    exec .winit State.reset = .next State.reset ∧ exec .round State.reset = .next State.reset ∧
    exec .update State.reset = .next State.reset ∧ exec .serialize State.reset = .next State.reset ∧
    exec (.discard true) { faultState with takeq := true } = .next State.reset :=
  ⟨rfl, rfl, rfl, rfl, rfl, rfl, rfl, rfl, rfl, rfl, rfl, rfl, rfl⟩

/-- SERIALIZE is not the operation of IDLE, and TAKE is neither CREATE nor HASH. -/
theorem witness_other_operations :
    decode (.u 0b1001#4) = .ok .serialize ∧ State.reset.phase ≠ 0b1001#4 ∧ Instr.take ≠ Instr.create ∧
    ∀ n, Instr.take ≠ Instr.hash n := ⟨rfl, by decide, by decide, fun _ h => by cases h⟩

/-- A step that stays in DONE. -/
theorem witness_stable : step doneState = .next doneState ∧ doneState.phase = 0b1010#4 := ⟨rfl, rfl⟩

theorem witness_rotation : (0 < 31 ∧ 31 < 32) ∧ (0 < 1 ∧ 1 < 32) := by decide

theorem witness_blocks :
    ([] : List Byte).length ≤ 2 ^ 61 - 1 ∧ padAndParse [] = padAndParse [] ∧ 2 ^ 61 - 1 ≤ 2 ^ 61 - 1 := ⟨by decide, rfl, le_rfl⟩

theorem witness_one_block :
    let s := { at_ 0b0100#4 with i := some 0, blk := some [abcBlock], nblk := some 1, h := some iv }
    s.inputs = [] ∧ s.phase = 0b0100#4 ∧ s.i = some 0 ∧ s.blk = some [abcBlock] ∧ s.nblk = some [abcBlock].length ∧
      [abcBlock][0]? = some abcBlock ∧ s.h = some iv := ⟨rfl, rfl, rfl, rfl, rfl, rfl, rfl⟩

/-- Calls with HOST's TAKE waiting: one that is admitted, one that is refused. -/
theorem witness_calls :
    let s := { pending 3#64 with inputs := [.command 0b10#2 0#64] }
    let f := { capThree 4#64 with inputs := [.command 0b10#2 0#64] }
    s.inputs = [.command 0b10#2 0#64] ∧ s.phase = 0b0000#4 ∧ s.takeq = false ∧
      s.Admits ⟨3#64⟩ [0x61#8, 0x62#8, 0x63#8] ∧ f.req = some ⟨4#64⟩ ∧ f.msgCap.val < (4#64).toNat :=
  ⟨rfl, rfl, rfl, ⟨rfl, by decide, rfl⟩, rfl, by decide⟩

end Sys2Proof.Tests
end

section
/-! Which byte of DIGESTB and which character of HEX stands where (R78, R80, R160, R161), and that neither format loses
anything. -/

namespace Sys2Proof.Machine

/-! ### Lists built from pieces of one length -/

/-- In a list put together from pieces of length `n`, element `n * k + j` is element `j` of piece `k`. -/
theorem getElem?_flatMap_of_length {α β : Type} {f : α → List β} {n : Nat} (hf : ∀ a, (f a).length = n)
    (l : List α) (k : Nat) {j : Nat} (hj : j < n) : (l.flatMap f)[n * k + j]? = l[k]?.bind fun a => (f a)[j]? := by
  induction l generalizing k with
  | nil => simp
  | cons a l ih =>
    rw [List.flatMap_cons]
    cases k with
    | zero => simp [List.getElem?_append_left, hf, hj]
    | succ k =>
      have shift : n * (k + 1) + j = (f a).length + (n * k + j) := by rw [hf, Nat.mul_succ]; omega
      rw [shift, List.getElem?_append_right (Nat.le_add_right _ _), Nat.add_sub_cancel_left, ih,
        List.getElem?_cons_succ]

/-! ### The digest's bytes (R76, R78) -/

/-- A word is the assembly of its four bytes (R76). -/
theorem wordBE_extract (v : Word) :
    wordBE (v.extractLsb' 24 8) (v.extractLsb' 16 8) (v.extractLsb' 8 8) (v.extractLsb' 0 8) = v := by
  apply BitVec.eq_of_toNat_eq
  simp only [wordBE_toNat, extract_byte_toNat]
  omega

theorem be32_get (v : Word) {j : Nat} (hj : j < 4) : (be32 v)[j]? = some (v.extractLsb' (24 - 8 * j) 8) := by
  interval_cases j <;> rfl

/-- DIGESTB is the words of the digest, each as its four bytes, in order (R78). -/
theorem digestBytes_toList (h : Vector Word 8) : (digestBytes h).toList = h.toList.flatMap be32 := by
  have written_out : h = #v[h[0], h[1], h[2], h[3], h[4], h[5], h[6], h[7]] := by
    ext k hk
    interval_cases k <;> rfl
  rw [written_out]
  rfl

theorem digestBytes_get (h : Vector Word 8) {k j : Nat} (hk : k < 8) (hj : j < 4) :
    (digestBytes h)[4 * k + j] = h[k].extractLsb' (24 - 8 * j) 8 := by
  have piece := getElem?_flatMap_of_length be32_length h.toList k hj
  rw [← digestBytes_toList] at piece
  simpa [hk, be32_get _ hj, show 4 * k + j < 32 by omega] using piece

/-- DIGESTB determines the digest's words (R161). -/
theorem digestBytes_injective : Function.Injective digestBytes := by
  intro h h' same
  ext1 k hk
  have bytes : ∀ j, (hj : j < 4) → h[k].extractLsb' (24 - 8 * j) 8 = h'[k].extractLsb' (24 - 8 * j) 8 := fun j hj => by
    rw [← digestBytes_get h hk hj, ← digestBytes_get h' hk hj, same]
  rw [← wordBE_extract h[k], ← wordBE_extract h'[k]]
  exact congr (congr (congr (congrArg wordBE (bytes 0 (by omega))) (bytes 1 (by omega))) (bytes 2 (by omega)))
    (bytes 3 (by omega))

/-! ### The characters of the text (R9, R80) -/

theorem hexDigit_toNat (v : BitVec 4) :
    (hexDigit v).toNat = if v.toNat ≤ 9 then 0x30 + v.toNat else 0x61 + (v.toNat - 10) := by
  have := v.isLt
  unfold hexDigit
  split_ifs
  · simp only [BitVec.toNat_add, BitVec.toNat_setWidth, BitVec.toNat_ofNat]
    omega
  · simp only [BitVec.toNat_add, BitVec.toNat_sub, BitVec.toNat_setWidth, BitVec.toNat_ofNat]
    omega

/-- The character of a nibble is one of `0` to `9` or `a` to `f`. -/
theorem hexDigit_lowercase (v : BitVec 4) :
    (0x30 ≤ (hexDigit v).toNat ∧ (hexDigit v).toNat ≤ 0x39) ∨
    (0x61 ≤ (hexDigit v).toNat ∧ (hexDigit v).toNat ≤ 0x66) := by
  have := v.isLt
  rw [hexDigit_toNat]
  split_ifs <;> omega

/-- The digits end below the letters, so no two nibbles share a character. -/
theorem hexDigit_injective : Function.Injective hexDigit := by
  intro u v same
  have codes := congrArg BitVec.toNat same
  rw [hexDigit_toNat, hexDigit_toNat] at codes
  apply BitVec.eq_of_toNat_eq
  have := u.isLt
  have := v.isLt
  split_ifs at codes <;> omega

/-- A byte is its two nibbles. -/
theorem byte_eq_of_nibbles {b c : Byte} (high : b.extractLsb' 4 4 = c.extractLsb' 4 4)
    (low : b.extractLsb' 0 4 = c.extractLsb' 0 4) : b = c := by
  have high_nat := congrArg BitVec.toNat high
  have low_nat := congrArg BitVec.toNat low
  simp only [BitVec.extractLsb'_toNat, Nat.shiftRight_eq_div_pow] at high_nat low_nat
  apply BitVec.eq_of_toNat_eq
  have := b.isLt
  have := c.isLt
  omega

@[simp] theorem hexByte_length (b : Byte) : (hexByte b).length = 2 := rfl

/-- HEX is the bytes of DIGESTB, each as its two characters, in order (R80). -/
theorem hexText_toList (d : Vector Byte 32) : (hexText d).toList = d.toList.flatMap hexByte := rfl

/-- Characters `2 * m` and `2 * m + 1` of HEX are those of byte `m` of DIGESTB (R80, R160). -/
theorem hexText_get (d : Vector Byte 32) {m : Nat} (hm : m < 32) :
    (hexText d)[2 * m] = hexDigit (d[m].extractLsb' 4 4) ∧ (hexText d)[2 * m + 1] = hexDigit (d[m].extractLsb' 0 4) := by
  have piece {j : Nat} (hj : j < 2) : (hexText d).toList[2 * m + j]? = d.toList[m]?.bind fun b => (hexByte b)[j]? :=
    getElem?_flatMap_of_length hexByte_length d.toList m hj
  constructor
  · simpa [hm, hexByte, show 2 * m < 64 by omega] using piece (j := 0) (by omega)
  · simpa [hm, hexByte, show 2 * m + 1 < 64 by omega] using piece (j := 1) (by omega)

/-- HEX determines DIGESTB (R161). -/
theorem hexText_injective : Function.Injective hexText := by
  intro d d' same
  ext1 m hm
  obtain ⟨high, low⟩ := hexText_get d hm
  obtain ⟨high', low'⟩ := hexText_get d' hm
  rw [same] at high low
  exact byte_eq_of_nibbles (hexDigit_injective (high.symm.trans high')) (hexDigit_injective (low.symm.trans low'))

/-- Every character of HEX is the character of a nibble. -/
theorem hexText_get_eq_hexDigit (d : Vector Byte 32) {j : Nat} (hj : j < 64) : ∃ v, (hexText d)[j] = hexDigit v := by
  have from_byte : (hexText d)[j] ∈ d.toList.flatMap hexByte := by
    rw [← hexText_toList]
    simp
  obtain ⟨b, -, digit⟩ := List.mem_flatMap.1 from_byte
  rcases List.mem_pair.1 digit with high | low
  · exact ⟨_, high⟩
  · exact ⟨_, low⟩

/-! ### The two statements -/

/-- SERIALIZE with `H` written completes and moves to DONE (R160). -/
theorem execSerialize_of_some {s : State} {h : Vector Word 8} (phase : s.phase = Phase.serialize.code)
    (written : s.h = some h) :
    execSerialize s =
      .next ({ s with digestb := some (digestBytes h), hex := some (hexText (digestBytes h)) }.goto .done) :=
  execSerialize_eq_next.2 (.inl ⟨phase, h, written, rfl⟩)

/-- Settles O29: DIGESTB and HEX are `digestBytes` and `hexText` of `H`, read byte by byte and character by character. -/
theorem serializeWritesTheDigest : Obligations.SerializeWritesTheDigest := by
  refine ⟨fun s h phase written => ⟨digestBytes h, hexText (digestBytes h), ?_, ?_, ?_⟩, hexDigit_toNat⟩
  · exact execSerialize_of_some phase written
  · exact fun k j hk hj => digestBytes_get h hk hj
  · exact fun m hm => hexText_get _ hm

/-- Settles O52: both formats are injective because their pieces are, and every character comes from a nibble. -/
theorem hexTextIsLowercaseAndFaithful : Obligations.HexTextIsLowercaseAndFaithful := by
  refine ⟨hexDigit_toNat, fun d j hj => ?_, fun _ _ same => hexText_injective same,
    fun _ _ same => digestBytes_injective same⟩
  obtain ⟨v, digit⟩ := hexText_get_eq_hexDigit d hj
  rw [digit]
  exact hexDigit_lowercase v

end Sys2Proof.Machine
end

section
/-! What the operations leave unchanged (R44, R50), whole-machine and one by one, and what they do outside their phase. -/

namespace Sys2Proof.Machine

/-! ### The frame of each operation (R44, R177) -/

section
variable {n : Nat} {f : Bool} {s t : State}

theorem execHash_frame (h : execHash n s = .next t) : t = { s with req := t.req } := by
  rcases execHash_eq_next.1 h with ⟨-, rfl⟩ | ⟨-, rfl⟩ <;> rfl

theorem execTake_frame (h : execTake s = .next t) : t = { s with takeq := t.takeq, results := t.results } := by
  rcases execTake_eq_next.1 h with ⟨-, _, -, rfl⟩ | ⟨-, rfl⟩ <;> rfl

theorem execDiscard_frame (h : execDiscard f s = .next t) :
    t.req = s.req ∧ t.results = s.results ∧ t.msgCap = s.msgCap ∧ t.inputs = s.inputs ∧ t.msg = s.msg := by
  rcases execDiscard_eq_next.1 h with ⟨-, rfl⟩ | ⟨-, rfl⟩ <;> exact ⟨rfl, rfl, rfl, rfl, rfl⟩

theorem State.accept_frame {r : Request} (h : s.accept r = .ok t) :
    t = { s with req := t.req, n := t.n, mbuf := t.mbuf, l := t.l, errcode := t.errcode, phase := t.phase } := by
  rcases State.accept_eq_ok.1 h with ⟨-, rfl⟩ | ⟨-, -, rfl⟩ | ⟨-, _, -, rfl⟩ <;> rfl

theorem execCreate_frame (h : execCreate s = .next t) :
    t = { s with req := t.req, n := t.n, mbuf := t.mbuf, l := t.l, errcode := t.errcode, phase := t.phase } := by
  rcases execCreate_eq_next.1 h with ⟨-, _, -, accepted⟩ | ⟨-, rfl⟩
  · exact State.accept_frame accepted
  · rfl

theorem execPad_frame (h : execPad s = .next t) : t = { s with z := t.z, pbuf := t.pbuf, phase := t.phase } := by
  rcases execPad_eq_next.1 h with ⟨-, _, _, _, -, -, -, rfl⟩ | ⟨-, rfl⟩ <;> rfl

theorem execParse_frame (h : execParse s = .next t) :
    t = { s with nblk := t.nblk, blk := t.blk, phase := t.phase } := by
  rcases execParse_eq_next.1 h with ⟨-, _, -, rfl⟩ | ⟨-, rfl⟩ <;> rfl

theorem execHinit_frame (h : execHinit s = .next t) : t = { s with h := t.h, i := t.i, phase := t.phase } := by
  rcases execHinit_eq_next.1 h with ⟨-, rfl⟩ | ⟨-, rfl⟩ <;> rfl

theorem execSchld_frame (h : execSchld s = .next t) : t = { s with w := t.w, t := t.t, phase := t.phase } := by
  rcases execSchld_eq_next.1 h with ⟨-, _, _, -, -, rfl⟩ | ⟨-, rfl⟩ <;> rfl

theorem execSchexp_frame (h : execSchexp s = .next t) : t = { s with w := t.w, t := t.t, phase := t.phase } := by
  rcases execSchexp_eq_next.1 h with ⟨-, _, _, -, -, rfl⟩ | ⟨-, rfl⟩
  · split <;> rfl
  · rfl

/-- SCHEXP writes no schedule word but the one its index names (R146). -/
theorem execSchexp_other_words (h : execSchexp s = .next t) {j : Nat} (hj : j < 64) (other : s.t ≠ some j) :
    t.w[j] = s.w[j] := by
  rcases execSchexp_eq_next.1 h with ⟨-, k, x, index, -, rfl⟩ | ⟨-, rfl⟩
  · have ne : k ≠ j := fun e => other (e ▸ index)
    split <;> exact Vector.getElem_setIfInBounds_ne hj ne
  · rfl

theorem execWinit_frame (h : execWinit s = .next t) : t = { s with work := t.work, t := t.t, phase := t.phase } := by
  rcases execWinit_eq_next.1 h with ⟨-, _, -, rfl⟩ | ⟨-, rfl⟩ <;> rfl

theorem execRound_frame (h : execRound s = .next t) : t = { s with work := t.work, t := t.t, phase := t.phase } := by
  rcases execRound_eq_next.1 h with ⟨-, _, _, _, _, -, -, -, -, rfl⟩ | ⟨-, rfl⟩
  · split <;> rfl
  · rfl

theorem execUpdate_frame (h : execUpdate s = .next t) : t = { s with h := t.h, i := t.i, phase := t.phase } := by
  rcases execUpdate_eq_next.1 h with ⟨-, _, _, _, _, -, -, -, -, rfl⟩ | ⟨-, rfl⟩ <;> rfl

theorem execSerialize_frame (h : execSerialize s = .next t) :
    t = { s with digestb := t.digestb, hex := t.hex, phase := t.phase } := by
  rcases execSerialize_eq_next.1 h with ⟨-, _, -, rfl⟩ | ⟨-, rfl⟩ <;> rfl

end

/-! ### What no operation writes (R50, R57) -/

/-- Settles O36: by the frame of each operation. -/
theorem operationsNeverWriteHostSpace : Obligations.OperationsNeverWriteHostSpace := by
  intro i s t h
  cases i with
  | hash n => rw [execHash_frame h]; exact ⟨rfl, rfl, rfl, fun _ => rfl⟩
  | take => rw [execTake_frame h]; exact ⟨rfl, rfl, rfl, fun other => absurd rfl other⟩
  | create => rw [execCreate_frame h]; exact ⟨rfl, rfl, rfl, fun _ => rfl⟩
  | pad => rw [execPad_frame h]; exact ⟨rfl, rfl, rfl, fun _ => rfl⟩
  | parse => rw [execParse_frame h]; exact ⟨rfl, rfl, rfl, fun _ => rfl⟩
  | hinit => rw [execHinit_frame h]; exact ⟨rfl, rfl, rfl, fun _ => rfl⟩
  | schld => rw [execSchld_frame h]; exact ⟨rfl, rfl, rfl, fun _ => rfl⟩
  | schexp => rw [execSchexp_frame h]; exact ⟨rfl, rfl, rfl, fun _ => rfl⟩
  | winit => rw [execWinit_frame h]; exact ⟨rfl, rfl, rfl, fun _ => rfl⟩
  | round => rw [execRound_frame h]; exact ⟨rfl, rfl, rfl, fun _ => rfl⟩
  | update => rw [execUpdate_frame h]; exact ⟨rfl, rfl, rfl, fun _ => rfl⟩
  | serialize => rw [execSerialize_frame h]; exact ⟨rfl, rfl, rfl, fun _ => rfl⟩
  | discard f =>
    obtain ⟨-, results, msgCap, inputs, msg⟩ := execDiscard_frame h
    exact ⟨msg, msgCap, inputs, fun _ => results⟩

theorem exec_msg {i : Instr} {s t : State} (h : exec i s = .next t) : t.msg = s.msg :=
  (operationsNeverWriteHostSpace i s t h).1

theorem exec_msg_read {i : Instr} {s t : State} (h : exec i s = .next t) (a : Nat) : t.msg.read a = s.msg.read a := by
  rw [exec_msg h]

/-- Settles O33: the frames of the two host commands and of DISCARD, and MSG as before. -/
theorem hostCommandsAndDiscardFrame : Obligations.HostCommandsAndDiscardFrame := by
  refine ⟨fun n s t h => ⟨execHash_frame h, exec_msg_read h⟩, fun s t h => ⟨execTake_frame h, exec_msg_read h⟩,
    fun f s t h => ?_⟩
  obtain ⟨req, results, msgCap, inputs, -⟩ := execDiscard_frame h
  exact ⟨req, results, msgCap, inputs, exec_msg_read h⟩

/-- Settles O34: the frames of the preprocessor's three operations, and MSG as before. -/
theorem preprocessorFrame : Obligations.PreprocessorFrame :=
  ⟨fun _ _ h => ⟨execCreate_frame h, exec_msg_read h⟩, fun _ _ h => ⟨execPad_frame h, exec_msg_read h⟩,
    fun _ _ h => ⟨execParse_frame h, exec_msg_read h⟩⟩

/-- Settles O35: the frames of the compressor's seven operations, the words SCHEXP keeps, and MSG as before. -/
theorem compressorFrame : Obligations.CompressorFrame :=
  ⟨fun _ _ h => execHinit_frame h, fun _ _ h => execSchld_frame h,
    fun _ _ h => ⟨execSchexp_frame h, fun _ hj other => execSchexp_other_words h hj other⟩,
    fun _ _ h => execWinit_frame h, fun _ _ h => execRound_frame h, fun _ _ h => execUpdate_frame h,
    fun _ _ h => execSerialize_frame h, fun _ _ _ _ h => exec_msg_read h⟩

/-! ### Outside its phase an operation waits (R171) -/

/-- Only the codes of the twelve phases select an operation (R84, R86). -/
theorem exists_phase_of_decodePhase {c : BitVec 4} {i : Instr} (h : decodePhase c = .ok i) :
    ∃ p : Phase, c = p.code := by
  have code_or_reserved : ∀ c : BitVec 4, (decodePhase c).toOption = none ∨
      c ∈ [Phase.idle, .pad, .parse, .hinit, .schld, .schexp, .winit, .round, .update, .serialize, .done, .fault].map
        Phase.code := by decide
  rcases code_or_reserved c with reserved | code
  · rw [h] at reserved
    cases reserved
  · obtain ⟨p, -, code⟩ := List.mem_map.1 code
    exact ⟨p, code.symm⟩

theorem State.discardEnabled_of_ne {s : State} {f : Bool} (h : s.phase ≠ (if f then Phase.fault else .done).code) :
    s.discardEnabled f = false := by
  simp [State.discardEnabled, State.inPhase, h]

/-- Settles O32: outside its phase each of the twelve micro-operations answers the state it was given. -/
theorem operationsWaitOutsideTheirPhase : Obligations.OperationsWaitOutsideTheirPhase := by
  intro s c i decoded other
  obtain ⟨p, rfl⟩ := exists_phase_of_decodePhase decoded
  cases (decodePhase_code p).symm.trans decoded
  cases p with
  | idle => exact execCreate_eq_next.2 (.inr ⟨.inl other, rfl⟩)
  | pad => exact execPad_eq_next.2 (.inr ⟨other, rfl⟩)
  | parse => exact execParse_eq_next.2 (.inr ⟨other, rfl⟩)
  | hinit => exact execHinit_eq_next.2 (.inr ⟨other, rfl⟩)
  | schld => exact execSchld_eq_next.2 (.inr ⟨other, rfl⟩)
  | schexp => exact execSchexp_eq_next.2 (.inr ⟨other, rfl⟩)
  | winit => exact execWinit_eq_next.2 (.inr ⟨other, rfl⟩)
  | round => exact execRound_eq_next.2 (.inr ⟨other, rfl⟩)
  | update => exact execUpdate_eq_next.2 (.inr ⟨other, rfl⟩)
  | serialize => exact execSerialize_eq_next.2 (.inr ⟨other, rfl⟩)
  | done => exact execDiscard_eq_next.2 (.inr ⟨State.discardEnabled_of_ne other, rfl⟩)
  | fault => exact execDiscard_eq_next.2 (.inr ⟨State.discardEnabled_of_ne other, rfl⟩)

end Sys2Proof.Machine
end

section
/-! Whose turn a step is (R172), and the invariant along every step: from a good state a step gives a good state, stops
at a message cell HOST never supplied, or refuses the reserved command. -/

namespace Sys2Proof.Machine

/-! ### The next step, by the first of the inputs (R172, log 1) -/

section
variable {s : State} {rest : List Input}

theorem coreMove_of_decode {i : Instr} (h : decodePhase s.phase = .ok i) : coreMove s = .run i s := by
  rw [coreMove, h]

theorem nextMove_of_no_input (h : s.inputs = []) : nextMove s = coreMove s := by
  rw [nextMove, h]

theorem nextMove_of_command {cmd : BitVec 2} {length : BitVec 64} {i : Instr}
    (h : s.inputs = .command cmd length :: rest) (decoded : decodeCommand cmd length = .ok i) :
    nextMove s = if s.hostEnabled i then .run i { s with inputs := rest } else coreMove s := by
  rw [nextMove, h]
  dsimp only
  rw [decoded]

theorem nextMove_of_store {index : BitVec 61} {byte : Byte} (h : s.inputs = .store index byte :: rest) :
    nextMove s = .outside { s with inputs := rest, msg := s.msg.write index.toNat byte } := by
  rw [nextMove, h]

theorem nextMove_of_reset (h : s.inputs = .reset :: rest) :
    nextMove s = .outside ({ s with inputs := rest }.applyReset) := by
  rw [nextMove, h]

end

/-- Settles O5: the turn rule, by the first of the inputs. -/
theorem stepRunsTheDecodedOperation : Obligations.StepRunsTheDecodedOperation := by
  refine ⟨fun s i no_input decoded => ?_, fun s cmd length rest i waiting decoded enabled => ?_⟩
  · rw [step, nextMove_of_no_input no_input, coreMove_of_decode decoded]
  · rw [step, nextMove_of_command waiting decoded, if_pos enabled]

/-- Settles O9: RESET is a step of the platform to `State.applyReset`. -/
theorem resetInputGivesTheResetState : Obligations.ResetInputGivesTheResetState := by
  intro s rest waiting
  rw [step, nextMove_of_reset waiting, State.applyReset_eq]

/-- A host command is HASH or TAKE (R81). -/
theorem decodeCommand_eq_ok {cmd : BitVec 2} {length : BitVec 64} {i : Instr} (h : decodeCommand cmd length = .ok i) :
    (∃ n, i = .hash n) ∨ i = .take := by
  unfold decodeCommand at h
  split_ifs at h
  · exact .inl ⟨_, (Except.ok.inj h).symm⟩
  · exact .inr (Except.ok.inj h).symm

/-- What the next step can be: CORE's, a host command's, HOST's write to MSG, the platform's reset, or a refusal. -/
theorem nextMove_cases (s : State) :
    (∃ inputs, nextMove s = coreMove { s with inputs := inputs }) ∨
    (∃ n inputs, nextMove s = .run (.hash n) { s with inputs := inputs }) ∨
    (∃ inputs, nextMove s = .run .take { s with inputs := inputs }) ∨
    (∃ (index : BitVec 61) (byte : Byte) (inputs : List Input),
      nextMove s = .outside { s with inputs := inputs, msg := s.msg.write index.toNat byte }) ∨
    (∃ inputs, nextMove s = .outside ({ s with inputs := inputs }.applyReset)) ∨
    nextMove s = .refuse .reservedCommand := by
  cases waiting : s.inputs with
  | nil => exact .inl ⟨s.inputs, nextMove_of_no_input waiting⟩
  | cons input rest =>
    cases input with
    | store index byte => exact .inr (.inr (.inr (.inl ⟨index, byte, rest, nextMove_of_store waiting⟩)))
    | reset => exact .inr (.inr (.inr (.inr (.inl ⟨rest, nextMove_of_reset waiting⟩))))
    | command cmd length =>
      cases decoded : decodeCommand cmd length with
      | ok i =>
        rw [nextMove_of_command waiting decoded]
        split_ifs
        · rcases decodeCommand_eq_ok decoded with ⟨n, rfl⟩ | rfl
          · exact .inr (.inl ⟨n, rest, rfl⟩)
          · exact .inr (.inr (.inl ⟨rest, rfl⟩))
        · exact .inl ⟨s.inputs, rfl⟩
      | error e =>
        rw [nextMove, waiting]
        dsimp only
        rw [decoded]
        cases e with
        | noCommand => exact .inl ⟨rest, rfl⟩
        | reservedCommand => exact .inr (.inr (.inr (.inr (.inr rfl))))
        | reservedPhase code => exact .inr (.inr (.inr (.inr (.inr rfl))))

/-! ### Reset and the end of a call (R42, R177) -/

/-- Reset, and DISCARD where it is enabled, leave the call as IDLE says. -/
theorem State.InCall.of_clearCall (s : State) (req : Option Request) :
    State.InCall ({ s.clearCall with takeq := false, errcode := 0#4, req := req }.goto .idle) :=
  .idle rfl ⟨rfl, rfl, rfl, rfl, rfl, rfl, rfl, rfl, rfl, rfl, rfl, rfl, rfl, rfl⟩ rfl rfl

theorem State.applyReset_inCall (s : State) : s.applyReset.InCall := .of_clearCall s none

theorem State.discardCall_inCall (s : State) : s.discardCall.InCall := .of_clearCall s s.req

theorem State.reset_cleared : State.reset.Cleared :=
  ⟨rfl, rfl, rfl, rfl, rfl, rfl, rfl, rfl, rfl, rfl, rfl, rfl, rfl, rfl⟩

/-- Settles O53: no cell of MSG is written, and the call is as IDLE says. -/
theorem invariantHoldsAtReset : Obligations.InvariantHoldsAtReset :=
  ⟨⟨.nil, nofun⟩, .idle rfl State.reset_cleared rfl rfl⟩

/-- Settles O8: the reset state, element by element. -/
theorem resetLeavesTheValuesOfTheTable : Obligations.ResetLeavesTheValuesOfTheTable :=
  ⟨rfl, State.reset_cleared, rfl, rfl, rfl, rfl, rfl, rfl, rfl⟩

/-- CREATE stops only at a message cell that holds no byte (log 3). -/
theorem State.accept_eq_error {s : State} {r : Request} {f : Fault} (h : s.accept r = .error f) :
    ∃ a, s.msg.read a = none ∧ f = .noSuchElement (.msg a) := by
  unfold State.accept at h
  dsimp only at h
  split_ifs at h
  rcases bind_eq_error.1 h with missing | ⟨m, -, completed⟩
  · obtain ⟨a, -, -, no_byte, fault⟩ := Memory.readBytes_error missing
    exact ⟨a, no_byte, fault⟩
  · cases completed

/-! ### CORE's step, phase by phase: what it reads is written, and what it writes is what the next phase says -/

section
variable {s t : State} {m : List Byte} {k n : Nat} {b : Block}

/-- CREATE waits, raises a length fault, copies the message, or stops at a cell HOST did not supply (R120, R190). -/
theorem State.Cleared.create_step (phase : s.phase = Phase.idle.code) (c : s.Cleared) (errcode : s.errcode = 0#4)
    (takeq : s.takeq = false) :
    (∃ t, execCreate s = .next t ∧ t.InCall) ∨
    ∃ a, execCreate s = .fault (.noSuchElement (.msg a)) ∧ s.msg.read a = none := by
  have raised : ∀ code, code = 1#4 ∨ code = 2#4 → (s.raiseFault code).InCall := fun code one_or_two =>
    .fault rfl (c.congr rfl rfl rfl rfl rfl rfl rfl rfl rfl rfl rfl rfl rfl rfl) one_or_two
  cases pending : s.req with
  | none => exact .inl ⟨s, execCreate_eq_next.2 (.inr ⟨.inr pending, rfl⟩), .idle phase c errcode takeq⟩
  | some r =>
    cases accepted : s.accept r with
    | ok t =>
      refine .inl ⟨t, execCreate_eq_next.2 (.inl ⟨phase, r, pending, accepted⟩), ?_⟩
      rcases State.accept_eq_ok.1 accepted with ⟨-, rfl⟩ | ⟨-, -, rfl⟩ | ⟨fits, m, copied, rfl⟩
      · exact raised _ (.inl rfl)
      · exact raised _ (.inr rfl)
      · rw [← Memory.readBytes_length copied] at fits ⊢
        exact .pad m rfl ⟨rfl, rfl, rfl, fits⟩ ⟨errcode, takeq, c.digestb, c.hex⟩ ⟨c.w, c.work, c.h, c.i, c.t⟩
          c.pbuf c.z c.blk c.nblk
    | error f =>
      obtain ⟨a, missing, rfl⟩ := State.accept_eq_error accepted
      refine .inr ⟨a, ?_, missing⟩
      simp [execCreate, pending, State.inPhase_of phase, accepted]

theorem State.Received.pad_step (phase : s.phase = Phase.pad.code) (r : s.Received m) (c : s.Computing)
    (u : s.Unstarted) (blk : s.blk = none) (nblk : s.nblk = none) : ∃ t, execPad s = .next t ∧ t.InCall :=
  ⟨_, execPad_eq_next.2 (.inl ⟨phase, _, _, _, r.n, r.mbuf, r.l, rfl⟩),
    .parse m rfl ⟨r.congr rfl rfl rfl rfl, rfl, rfl⟩ (c.congr rfl rfl rfl rfl) (u.congr rfl rfl rfl rfl rfl) blk nblk⟩

theorem State.Padded.parse_step (phase : s.phase = Phase.parse.code) (p : s.Padded m) (c : s.Computing)
    (u : s.Unstarted) : ∃ t, execParse s = .next t ∧ t.InCall :=
  ⟨_, execParse_eq_next.2 (.inl ⟨phase, _, p.pbuf, rfl⟩),
    .hinit m rfl ⟨p.congr rfl rfl rfl rfl rfl rfl, rfl, congrArg some (parseBlocks_length _).symm⟩
      (c.congr rfl rfl rfl rfl) (u.congr rfl rfl rfl rfl rfl)⟩

/-- HINIT opens the first block: a padded message has at least one (R72, R140). -/
theorem State.Parsed.hinit_step (phase : s.phase = Phase.hinit.code) (p : s.Parsed m) (c : s.Computing) :
    ∃ t, execHinit s = .next t ∧ t.InCall :=
  ⟨_, execHinit_eq_next.2 (.inl ⟨phase, rfl⟩),
    .schld m 0 _ rfl ⟨p.congr rfl rfl rfl rfl rfl rfl rfl rfl, c.congr rfl rfl rfl rfl, rfl,
      List.getElem?_eq_getElem (padAndParse_length_pos m), congrArg some (digestAfter_zero _).symm⟩⟩

/-- While the schedule and the working registers change, the block, its index and the running digest stay (R44, R221). -/
theorem State.AtBlock.of_frame (a : s.AtBlock m k b)
    (frame : t = { s with w := t.w, work := t.work, t := t.t, phase := t.phase }) : t.AtBlock m k b := by
  rw [frame]
  exact ⟨a.parsed.congr rfl rfl rfl rfl rfl rfl rfl rfl, a.computing.congr rfl rfl rfl rfl, a.i, a.block, a.h⟩

theorem State.AtBlock.schld_step (phase : s.phase = Phase.schld.code) (a : s.AtBlock m k b) :
    ∃ t, execSchld s = .next t ∧ t.InCall :=
  ⟨_, execSchld_eq_next.2
      (.inl ⟨phase, k, b, a.i, State.readBlk_eq_ok.2 ⟨_, a.parsed.blk, a.block⟩, rfl⟩),
    .schexp m k b 16 rfl (a.of_frame rfl) rfl le_rfl (by decide) (State.scheduled_load rfl)⟩

/-- SCHEXP extends the schedule by one word; after word 63 it is whole (R146). -/
theorem State.AtBlock.schexp_step (phase : s.phase = Phase.schexp.code) (a : s.AtBlock m k b) (t_eq : s.t = some n)
    (low : 16 ≤ n) (high : n ≤ 63) (scheduled : s.Scheduled b n) : ∃ t, execSchexp s = .next t ∧ t.InCall := by
  refine ⟨_, execSchexp_eq_next.2 (.inl ⟨phase, n, _, t_eq, scheduled.expandWord low high, rfl⟩), ?_⟩
  by_cases last : n = 63
  · subst last
    exact .winit m k b rfl (a.of_frame rfl) t_eq (scheduled.write high rfl)
  · rw [if_neg last]
    exact .schexp m k b (n + 1) phase (a.of_frame rfl) rfl (by omega) (by omega) (scheduled.write high rfl)

theorem State.AtBlock.winit_step (phase : s.phase = Phase.winit.code) (a : s.AtBlock m k b)
    (scheduled : s.Scheduled b 64) : ∃ t, execWinit s = .next t ∧ t.InCall :=
  ⟨_, execWinit_eq_next.2 (.inl ⟨phase, _, a.h, rfl⟩),
    .round m k b 0 rfl (a.of_frame rfl) rfl (by decide) (scheduled.congr rfl)
      (congrArg some (roundsFrom_zero _ _).symm)⟩

/-- ROUND is one more round of the block; after round 63 they are all done (R152, R153). -/
theorem State.AtBlock.round_step (phase : s.phase = Phase.round.code) (a : s.AtBlock m k b) (t_eq : s.t = some n)
    (high : n ≤ 63) (scheduled : s.Scheduled b 64)
    (work : s.work = some (roundsFrom (digestAfter (padAndParse m) k) b n)) :
    ∃ t, execRound s = .next t ∧ t.InCall := by
  have bound : n < 64 := by omega
  refine ⟨_, execRound_eq_next.2 (.inl ⟨phase, n, _, _, _, t_eq, work, readK_eq_ok.2 ⟨bound, rfl⟩,
    scheduled.readW bound bound, rfl⟩), ?_⟩
  rw [← roundsFrom_succ _ b n bound]
  by_cases last : n = 63
  · subst last
    exact .update m k b rfl (a.of_frame rfl) t_eq (scheduled.congr rfl) rfl
  · rw [if_neg last]
    exact .round m k b (n + 1) phase (a.of_frame rfl) rfl (by omega) (scheduled.congr rfl) rfl

/-- UPDATE ends the block with its compression, and goes to the next block where there is one (R156, R157). -/
theorem State.AtBlock.update_step (phase : s.phase = Phase.update.code) (a : s.AtBlock m k b) (t_eq : s.t = some 63)
    (work : s.work = some (roundsFrom (digestAfter (padAndParse m) k) b 64)) :
    ∃ t, execUpdate s = .next t ∧ t.InCall := by
  refine ⟨_, execUpdate_eq_next.2 (.inl ⟨phase, _, _, _, _, a.h, work, a.i, a.parsed.nblk, rfl⟩), ?_⟩
  rw [← compress_eq, ← digestAfter_succ _ k b a.block]
  by_cases last : k + 1 = (padAndParse m).length
  · rw [if_pos last, last]
    exact .serialize m rfl (a.parsed.congr rfl rfl rfl rfl rfl rfl rfl rfl) (a.computing.congr rfl rfl rfl rfl) rfl
      t_eq rfl
  · rw [if_neg last]
    obtain ⟨inside, -⟩ := List.getElem?_eq_some_iff.1 a.block
    exact .schld m (k + 1) _ rfl ⟨a.parsed.congr rfl rfl rfl rfl rfl rfl rfl rfl, a.computing.congr rfl rfl rfl rfl, rfl,
      List.getElem?_eq_getElem (by omega), rfl⟩

theorem State.Parsed.serialize_step (phase : s.phase = Phase.serialize.code) (p : s.Parsed m) (c : s.Computing)
    (i : s.i = some (padAndParse m).length) (t_eq : s.t = some 63)
    (h : s.h = some (digestAfter (padAndParse m) (padAndParse m).length)) :
    ∃ t, execSerialize s = .next t ∧ t.InCall :=
  ⟨_, execSerialize_eq_next.2 (.inl ⟨phase, _, h, rfl⟩),
    .done m rfl (p.congr rfl rfl rfl rfl rfl rfl rfl rfl) c.errcode i t_eq h rfl rfl⟩

/-- DISCARD waits for TAKE or ends the call (R177). -/
theorem State.InCall.discard_step (call : s.InCall) (f : Bool) : ∃ t, execDiscard f s = .next t ∧ t.InCall := by
  cases enabled : s.discardEnabled f with
  | true => exact ⟨_, execDiscard_eq_next.2 (.inl ⟨enabled, rfl⟩), s.discardCall_inCall⟩
  | false => exact ⟨s, execDiscard_eq_next.2 (.inr ⟨enabled, rfl⟩), call⟩

end

/-! ### What a call shows HOST: an error in FAULT, the outputs in DONE, nothing elsewhere (R34, R175, R176) -/

/-- The call has no result to take yet. -/
structure State.NoResult (s : State) : Prop where
  not_done : s.phase ≠ Phase.done.code
  not_fault : s.phase ≠ Phase.fault.code
  errcode : s.errcode = 0#4
  digestb : s.digestb = none
  hex : s.hex = none

section
variable {s : State}

theorem State.Computing.noResult {p : Phase} (c : s.Computing) (phase : s.phase = p.code) (not_done : p ≠ .done)
    (not_fault : p ≠ .fault) : s.NoResult :=
  ⟨by rwa [phase, Ne, Phase.code_inj], by rwa [phase, Ne, Phase.code_inj], c.errcode, c.digestb, c.hex⟩

/-- A call has a result in DONE and in FAULT, where a TAKE leaves it as it is, and nowhere else. -/
theorem State.InCall.result_cases (call : s.InCall) :
    s.NoResult ∨ (∀ results, State.InCall { s with results := results, takeq := true }) ∧
      ((s.phase = Phase.done.code ∧ s.errcode = 0#4 ∧ (∃ text, s.hex = some text) ∧ ∃ bytes, s.digestb = some bytes) ∨
       (s.phase = Phase.fault.code ∧ (s.errcode = 1#4 ∨ s.errcode = 2#4) ∧ s.hex = none ∧ s.digestb = none)) := by
  cases call with
  | idle phase c errcode takeq => exact .inl (State.Computing.noResult ⟨errcode, takeq, c.digestb, c.hex⟩ phase nofun nofun)
  | pad m phase r c => exact .inl (c.noResult phase nofun nofun)
  | parse m phase p c => exact .inl (c.noResult phase nofun nofun)
  | hinit m phase p c => exact .inl (c.noResult phase nofun nofun)
  | schld m k b phase a => exact .inl (a.computing.noResult phase nofun nofun)
  | schexp m k b t phase a => exact .inl (a.computing.noResult phase nofun nofun)
  | winit m k b phase a => exact .inl (a.computing.noResult phase nofun nofun)
  | round m k b t phase a => exact .inl (a.computing.noResult phase nofun nofun)
  | update m k b phase a => exact .inl (a.computing.noResult phase nofun nofun)
  | serialize m phase p c => exact .inl (c.noResult phase nofun nofun)
  | done m phase p errcode i t_eq h digestb hex =>
    exact .inr ⟨fun _ => .done m phase (p.congr rfl rfl rfl rfl rfl rfl rfl rfl) errcode i t_eq h digestb hex,
      .inl ⟨phase, errcode, ⟨_, hex⟩, _, digestb⟩⟩
  | fault phase c errcode =>
    exact .inr ⟨fun _ => .fault phase (c.congr rfl rfl rfl rfl rfl rfl rfl rfl rfl rfl rfl rfl rfl rfl) errcode,
      .inr ⟨phase, errcode, c.hex, c.digestb⟩⟩

theorem State.done_eq_true : s.done = true ↔ s.phase = Phase.done.code := State.inPhase_eq_true

theorem State.err_eq_true : s.err = true ↔ s.phase = Phase.fault.code := State.inPhase_eq_true

theorem State.busy_eq_true :
    s.busy = true ↔ s.phase ≠ Phase.idle.code ∧ s.phase ≠ Phase.done.code ∧ s.phase ≠ Phase.fault.code := by
  simp [State.busy, State.inPhase, and_assoc]

/-- Settles O38: each flag is a test of the phase, and the codes of IDLE, DONE and FAULT differ. -/
theorem flagsFollowThePhase : Obligations.FlagsFollowThePhase := by
  intro s
  have done_ne_fault : Phase.done.code ≠ Phase.fault.code := by decide
  have idle_ne_done : Phase.idle.code ≠ Phase.done.code := by decide
  have idle_ne_fault : Phase.idle.code ≠ Phase.fault.code := by decide
  refine ⟨State.busy_eq_true, State.done_eq_true, State.err_eq_true, ?_, ?_, ?_, ?_⟩
  · rintro ⟨busy, done⟩
    exact (State.busy_eq_true.1 busy).2.1 (State.done_eq_true.1 done)
  · rintro ⟨busy, err⟩
    exact (State.busy_eq_true.1 busy).2.2 (State.err_eq_true.1 err)
  · rintro ⟨done, err⟩
    exact done_ne_fault ((State.done_eq_true.1 done).symm.trans (State.err_eq_true.1 err))
  · rw [← Bool.not_eq_true, ← Bool.not_eq_true, ← Bool.not_eq_true, State.busy_eq_true, State.done_eq_true,
      State.err_eq_true]
    constructor
    · rintro ⟨not_busy, not_done, not_err⟩
      by_contra not_idle
      exact not_busy ⟨not_idle, not_done, not_err⟩
    · intro (idle : s.phase = Phase.idle.code)
      rw [idle]
      exact ⟨fun busy => busy.1 rfl, idle_ne_done, idle_ne_fault⟩

/-- Settles O39: by what a call shows in FAULT, in DONE and elsewhere. -/
theorem errcodeAndOutputsFollowThePhase : Obligations.ErrcodeAndOutputsFollowThePhase := by
  intro s inv
  have port : s.digestb = none → s.digestPort = none := fun h => by rw [State.digestPort, h]; rfl
  rw [← Bool.not_eq_true, ← Bool.not_eq_true, State.err_eq_true, State.done_eq_true]
  rcases inv.call.result_cases with no_result | ⟨-, ⟨phase, errcode, -⟩ | ⟨phase, errcode, hex, digestb⟩⟩
  · exact ⟨fun fault => absurd fault no_result.not_fault, fun _ => no_result.errcode,
      fun _ => ⟨no_result.digestb, no_result.hex, port no_result.digestb⟩⟩
  · rw [phase]
    exact ⟨fun fault => absurd fault (by decide), fun _ => errcode, fun not_done => absurd rfl not_done⟩
  · exact ⟨fun _ => errcode, fun not_fault => absurd phase not_fault, fun _ => ⟨digestb, hex, port digestb⟩⟩

end

/-! ### Every step from a good state (R21, R196, R197) -/

section
variable {s t : State}

theorem State.takeEnabled_eq_true :
    s.takeEnabled = true ↔ s.takeq = false ∧ (s.phase = Phase.done.code ∨ s.phase = Phase.fault.code) := by
  simp [State.takeEnabled]

/-- TAKE waits, or hands over a result that is there and leaves the call as it is (R176). -/
theorem State.InCall.take_step (call : s.InCall) : ∃ t, execTake s = .next t ∧ t.InCall := by
  cases enabled : s.takeEnabled with
  | false => exact ⟨s, execTake_eq_next.2 (.inr ⟨enabled, rfl⟩), call⟩
  | true =>
    have done_or_fault := (State.takeEnabled_eq_true.1 enabled).2
    rcases call.result_cases with no_result | ⟨taken, ⟨phase, -, ⟨text, hex⟩, bytes, digestb⟩ | ⟨phase, -⟩⟩
    · exact (done_or_fault.elim no_result.not_done no_result.not_fault).elim
    · exact ⟨_, execTake_eq_next.2 (.inl ⟨enabled, _,
        State.takeResult_eq_ok.2 (.inl ⟨phase, text, bytes, hex, digestb, rfl⟩), rfl⟩), taken _⟩
    · have not_done : s.phase ≠ Phase.done.code := by rw [phase]; decide
      exact ⟨_, execTake_eq_next.2 (.inl ⟨enabled, _, State.takeResult_eq_ok.2 (.inr ⟨not_done, rfl⟩), rfl⟩), taken _⟩

/-- HASH waits or writes REQ, which is no part of the call (R170). -/
theorem State.InCall.hash_step (call : s.InCall) (n : Nat) : ∃ t, execHash n s = .next t ∧ t.InCall := by
  by_cases empty : s.req = none
  · exact ⟨_, execHash_eq_next.2 (.inl ⟨empty, rfl⟩), call.outside _ s.msg s.results s.inputs⟩
  · exact ⟨s, execHash_eq_next.2 (.inr ⟨empty, rfl⟩), call⟩

theorem State.Inv.of_exec {i : Instr} (inv : s.Inv) (next : exec i s = .next t) (call : t.InCall) : t.Inv :=
  ⟨exec_msg next ▸ inv.msg_wf, call⟩

theorem State.Inv.with_inputs (inv : s.Inv) (inputs : List Input) : State.Inv { s with inputs := inputs } :=
  ⟨inv.msg_wf, inv.call.outside s.req s.msg s.results inputs⟩

theorem coreMove_of_phase {p : Phase} {i : Instr} (phase : s.phase = p.code) (selects : decodePhase p.code = .ok i) :
    coreMove s = .run i s :=
  coreMove_of_decode (phase ▸ selects)

/-- In a good state CORE has an operation, which keeps the call, or is CREATE at a cell HOST did not supply. -/
theorem State.InCall.core_step (call : s.InCall) :
    ∃ i, coreMove s = .run i s ∧ ((∃ t, exec i s = .next t ∧ t.InCall) ∨
      ∃ a, exec i s = .fault (.noSuchElement (.msg a)) ∧ s.phase = Phase.idle.code ∧ s.msg.read a = none) := by
  cases call with
  | idle phase c errcode takeq =>
    refine ⟨.create, coreMove_of_phase phase rfl, ?_⟩
    exact (c.create_step phase errcode takeq).imp_right fun ⟨a, stops, missing⟩ => ⟨a, stops, phase, missing⟩
  | pad m phase r c u pbuf z blk nblk => exact ⟨.pad, coreMove_of_phase phase rfl, .inl (r.pad_step phase c u blk nblk)⟩
  | parse m phase p c u => exact ⟨.parse, coreMove_of_phase phase rfl, .inl (p.parse_step phase c u)⟩
  | hinit m phase p c => exact ⟨.hinit, coreMove_of_phase phase rfl, .inl (p.hinit_step phase c)⟩
  | schld m k b phase a => exact ⟨.schld, coreMove_of_phase phase rfl, .inl (a.schld_step phase)⟩
  | schexp m k b t phase a t_eq low high w =>
    exact ⟨.schexp, coreMove_of_phase phase rfl, .inl (a.schexp_step phase t_eq low high w)⟩
  | winit m k b phase a t_eq w => exact ⟨.winit, coreMove_of_phase phase rfl, .inl (a.winit_step phase w)⟩
  | round m k b t phase a t_eq high w work =>
    exact ⟨.round, coreMove_of_phase phase rfl, .inl (a.round_step phase t_eq high w work)⟩
  | update m k b phase a t_eq w work =>
    exact ⟨.update, coreMove_of_phase phase rfl, .inl (a.update_step phase t_eq work)⟩
  | serialize m phase p c i t_eq h =>
    exact ⟨.serialize, coreMove_of_phase phase rfl, .inl (p.serialize_step phase c i t_eq h)⟩
  | done m phase p errcode i t_eq h digestb hex =>
    exact ⟨.discard false, coreMove_of_phase phase rfl,
      .inl (State.InCall.discard_step (.done m phase p errcode i t_eq h digestb hex) false)⟩
  | fault phase c errcode =>
    exact ⟨.discard true, coreMove_of_phase phase rfl, .inl (State.InCall.discard_step (.fault phase c errcode) true)⟩

/-- Everything a step can answer from a good state: a good state, the fault of a message cell HOST did not supply, or the
refusal of the reserved command. -/
theorem State.Inv.step_cases (inv : s.Inv) :
    (∃ t, step s = .next t ∧ t.Inv) ∨
    (∃ a, step s = .fault (.noSuchElement (.msg a)) ∧ s.phase = Phase.idle.code ∧ s.msg.read a = none) ∨
    step s = .refused .reservedCommand := by
  rcases nextMove_cases s with ⟨inputs, move⟩ | ⟨n, inputs, move⟩ | ⟨inputs, move⟩ | ⟨index, byte, inputs, move⟩ |
    ⟨inputs, move⟩ | move <;> rw [step, move]
  · have inv' := inv.with_inputs inputs
    obtain ⟨i, core_move, ⟨t, next, call⟩ | ⟨a, fault, phase, missing⟩⟩ := inv'.call.core_step
    · rw [core_move]
      exact .inl ⟨t, next, inv'.of_exec next call⟩
    · rw [core_move]
      exact .inr (.inl ⟨a, fault, phase, missing⟩)
  · have inv' := inv.with_inputs inputs
    obtain ⟨t, next, call⟩ := inv'.call.hash_step n
    exact .inl ⟨t, next, inv'.of_exec (i := .hash n) next call⟩
  · have inv' := inv.with_inputs inputs
    obtain ⟨t, next, call⟩ := inv'.call.take_step
    exact .inl ⟨t, next, inv'.of_exec (i := .take) next call⟩
  · exact .inl ⟨_, rfl, Memory.write_wf inv.msg_wf index.isLt, inv.call.outside s.req _ s.results inputs⟩
  · exact .inl ⟨_, rfl, inv.msg_wf, State.applyReset_inCall _⟩
  · exact .inr (.inr rfl)

end

/-- Settles O54: the good next state of `State.Inv.step_cases` is the step's. -/
theorem everyStepKeepsTheInvariant : Obligations.EveryStepKeepsTheInvariant := by
  intro s t inv next
  rcases inv.step_cases with ⟨t', next', inv'⟩ | ⟨a, fault, -⟩ | refused
  · cases next'.symm.trans next
    exact inv'
  · cases fault.symm.trans next
  · cases refused.symm.trans next

/-- Settles O55: the only fault of `State.Inv.step_cases` is that of a missing message cell. -/
theorem noStepReadsNovalue : Obligations.NoStepReadsNovalue := by
  intro s f inv fault
  rcases inv.step_cases with ⟨t, next, -⟩ | ⟨a, fault', phase, missing⟩ | refused
  · cases next.symm.trans fault
  · cases fault'.symm.trans fault
    exact ⟨a, rfl, phase, missing⟩
  · cases refused.symm.trans fault

end Sys2Proof.Machine
end

section
/-! When a meaning stops with a model fault: novalue where it reads (R196), an index outside its file (log 9). -/

namespace Sys2Proof.Machine

/-! ### What each read can stop with -/

section
variable {s : State} {k t : Nat} {f : Fault}

theorem State.readBlk_of_none (h : s.blk = none) : s.readBlk k = .error (.uninitRead .blocks) := by
  simp [State.readBlk, h]

theorem State.readBlk_of_length_le {blocks : List Block} (h : s.blk = some blocks) (past_end : blocks.length ≤ k) :
    s.readBlk k = .error (.noSuchElement (.blk k)) := by
  simp [State.readBlk, h, past_end]

theorem readK_of_lt (h : 63 < k) : readK k = .error (.noSuchElement (.k k)) := by
  simp [readK, show ¬k < 64 by omega]

theorem State.expandWord_of_outside (h : t < 16 ∨ 63 < t) : s.expandWord t = .error (.noSuchElement (.w t)) :=
  if_neg (by omega)

/-- SCHEXP reads its four words in this order, each only when those before it hold a value (log 30). -/
theorem State.expandWord_eq_error (low : 16 ≤ t) (high : t ≤ 63) :
    s.expandWord t = .error f ↔
      s.readW (t - 2) = .error f ∨ (∃ x, s.readW (t - 2) = .ok x) ∧
        (s.readW (t - 7) = .error f ∨ (∃ x, s.readW (t - 7) = .ok x) ∧
          (s.readW (t - 15) = .error f ∨ (∃ x, s.readW (t - 15) = .ok x) ∧ s.readW (t - 16) = .error f)) := by
  simp [State.expandWord, low, high, bind_eq_error]

theorem State.takeResult_eq_error :
    s.takeResult = .error f ↔ s.phase = Phase.done.code ∧
      ((s.hex = none ∧ f = .uninitRead .hex) ∨ (s.hex ≠ none ∧ s.digestb = none ∧ f = .uninitRead .digestb)) := by
  unfold State.takeResult State.done State.inPhase
  by_cases h : s.phase = Phase.done.code <;>
    simp [h, bind_eq_error, need_eq_error, need_eq_ok, Option.ne_none_iff_exists']

end

/-! ### What each meaning can stop with, in its reading order (R196, log 30) -/

section
variable {s : State} {f : Fault}

theorem execTake_eq_fault : execTake s = .fault f ↔ s.takeEnabled = true ∧ s.takeResult = .error f := by
  simp [execTake, whenEnabled_eq_fault, bind_eq_error]

theorem execPad_eq_fault :
    execPad s = .fault f ↔ s.phase = Phase.pad.code ∧
      ((s.n = none ∧ f = .uninitRead .n) ∨ s.n ≠ none ∧
        ((s.mbuf = none ∧ f = .uninitRead .mbuf) ∨ s.mbuf ≠ none ∧ s.l = none ∧ f = .uninitRead .l)) := by
  simp [execPad, whenEnabled_eq_fault, bind_eq_error, need_eq_error, need_eq_ok, Option.ne_none_iff_exists']

theorem execParse_eq_fault :
    execParse s = .fault f ↔ s.phase = Phase.parse.code ∧ s.pbuf = none ∧ f = .uninitRead .pbuf := by
  simp [execParse, whenEnabled_eq_fault, bind_eq_error, need_eq_error]

theorem execSchld_eq_fault :
    execSchld s = .fault f ↔ s.phase = Phase.schld.code ∧
      ((s.i = none ∧ f = .uninitRead .i) ∨ ∃ i, s.i = some i ∧ s.readBlk i = .error f) := by
  simp [execSchld, whenEnabled_eq_fault, bind_eq_error, need_eq_error, need_eq_ok]

theorem execSchexp_eq_fault :
    execSchexp s = .fault f ↔ s.phase = Phase.schexp.code ∧
      ((s.t = none ∧ f = .uninitRead .t) ∨ ∃ t, s.t = some t ∧ s.expandWord t = .error f) := by
  simp [execSchexp, whenEnabled_eq_fault, bind_eq_error, need_eq_error, need_eq_ok]

theorem execWinit_eq_fault :
    execWinit s = .fault f ↔ s.phase = Phase.winit.code ∧ s.h = none ∧ f = .uninitRead .h := by
  simp [execWinit, whenEnabled_eq_fault, bind_eq_error, need_eq_error]

theorem execRound_eq_fault :
    execRound s = .fault f ↔ s.phase = Phase.round.code ∧
      ((s.t = none ∧ f = .uninitRead .t) ∨ ∃ t, s.t = some t ∧
        ((s.work = none ∧ f = .uninitRead .work) ∨
         (s.work ≠ none ∧ (readK t = .error f ∨ (∃ x, readK t = .ok x) ∧ s.readW t = .error f)))) := by
  simp [execRound, whenEnabled_eq_fault, bind_eq_error, need_eq_error, need_eq_ok, Option.ne_none_iff_exists']

theorem execUpdate_eq_fault :
    execUpdate s = .fault f ↔ s.phase = Phase.update.code ∧
      ((s.h = none ∧ f = .uninitRead .h) ∨ s.h ≠ none ∧
        ((s.work = none ∧ f = .uninitRead .work) ∨ s.work ≠ none ∧
          ((s.i = none ∧ f = .uninitRead .i) ∨ s.i ≠ none ∧ s.nblk = none ∧ f = .uninitRead .nblk))) := by
  simp [execUpdate, whenEnabled_eq_fault, bind_eq_error, need_eq_error, need_eq_ok, Option.ne_none_iff_exists']

theorem execSerialize_eq_fault :
    execSerialize s = .fault f ↔ s.phase = Phase.serialize.code ∧ s.h = none ∧ f = .uninitRead .h := by
  simp [execSerialize, whenEnabled_eq_fault, bind_eq_error, need_eq_error]

end

/-! ### The two statements on stops -/

section
variable {s : State} {t : Nat} {f : Fault}

/-- SCHEXP stops at the first of its four words that holds novalue (R146, R196). -/
theorem execSchexp_of_novalue (low : 16 ≤ t) (high : t ≤ 63) (phase : s.phase = Phase.schexp.code)
    (t_eq : s.t = some t) :
    (s.w[t - 2] = none → execSchexp s = .fault (.uninitRead (.w (t - 2)))) ∧
    (s.w[t - 2] ≠ none → s.w[t - 7] = none → execSchexp s = .fault (.uninitRead (.w (t - 7)))) ∧
    (s.w[t - 2] ≠ none → s.w[t - 7] ≠ none → s.w[t - 15] = none →
      execSchexp s = .fault (.uninitRead (.w (t - 15)))) ∧
    (s.w[t - 2] ≠ none → s.w[t - 7] ≠ none → s.w[t - 15] ≠ none → s.w[t - 16] = none →
      execSchexp s = .fault (.uninitRead (.w (t - 16)))) := by
  have stops := fun {f : Fault} reads => (execSchexp_eq_fault (f := f)).2
    ⟨phase, .inr ⟨t, t_eq, (State.expandWord_eq_error low high).2 reads⟩⟩
  refine ⟨fun w2 => stops (.inl (State.readW_of_none _ w2)), fun w2 w7 => stops (.inr ⟨?_, .inl ?_⟩),
    fun w2 w7 w15 => stops (.inr ⟨?_, .inr ⟨?_, .inl ?_⟩⟩),
    fun w2 w7 w15 w16 => stops (.inr ⟨?_, .inr ⟨?_, .inr ⟨?_, ?_⟩⟩⟩)⟩
  · exact State.readW_of_ne_none _ w2
  · exact State.readW_of_none _ w7
  · exact State.readW_of_ne_none _ w2
  · exact State.readW_of_ne_none _ w7
  · exact State.readW_of_none _ w15
  · exact State.readW_of_ne_none _ w2
  · exact State.readW_of_ne_none _ w7
  · exact State.readW_of_ne_none _ w15
  · exact State.readW_of_none _ w16

end

/-- Settles O30: each case is one of the stops its meaning lists. -/
theorem readingNovalueFaults : Obligations.ReadingNovalueFaults := by
  refine ⟨?padN, ?padMbuf, ?padL, ?parse, ?schldI, ?schldBlk, ?schexpT, ?schexpW, ?winit, ?roundT, ?roundWork, ?roundW,
    ?updateH, ?updateWork, ?updateI, ?updateN, ?serialize, ?takeHex, ?takeDigestb⟩
  case padN => exact fun s phase n => execPad_eq_fault.2 ⟨phase, .inl ⟨n, rfl⟩⟩
  case padMbuf => exact fun s phase n mbuf => execPad_eq_fault.2 ⟨phase, .inr ⟨n, .inl ⟨mbuf, rfl⟩⟩⟩
  case padL => exact fun s phase n mbuf l => execPad_eq_fault.2 ⟨phase, .inr ⟨n, .inr ⟨mbuf, l, rfl⟩⟩⟩
  case parse => exact fun s phase pbuf => execParse_eq_fault.2 ⟨phase, pbuf, rfl⟩
  case schldI => exact fun s phase i => execSchld_eq_fault.2 ⟨phase, .inl ⟨i, rfl⟩⟩
  case schldBlk =>
    intro s phase i blk
    obtain ⟨k, i_eq⟩ := Option.ne_none_iff_exists'.1 i
    exact execSchld_eq_fault.2 ⟨phase, .inr ⟨k, i_eq, State.readBlk_of_none blk⟩⟩
  case schexpT => exact fun s phase t => execSchexp_eq_fault.2 ⟨phase, .inl ⟨t, rfl⟩⟩
  case schexpW => exact fun s t low high phase t_eq => execSchexp_of_novalue low high phase t_eq
  case winit => exact fun s phase h => execWinit_eq_fault.2 ⟨phase, h, rfl⟩
  case roundT => exact fun s phase t => execRound_eq_fault.2 ⟨phase, .inl ⟨t, rfl⟩⟩
  case roundWork =>
    intro s phase t work
    obtain ⟨k, t_eq⟩ := Option.ne_none_iff_exists'.1 t
    exact execRound_eq_fault.2 ⟨phase, .inr ⟨k, t_eq, .inl ⟨work, rfl⟩⟩⟩
  case roundW =>
    intro s t high phase t_eq work w
    have bound : t < 64 := by omega
    exact execRound_eq_fault.2 ⟨phase, .inr ⟨t, t_eq, .inr ⟨work, .inr
      ⟨⟨_, readK_eq_ok.2 ⟨bound, rfl⟩⟩, State.readW_of_none bound w⟩⟩⟩⟩
  case updateH => exact fun s phase h => execUpdate_eq_fault.2 ⟨phase, .inl ⟨h, rfl⟩⟩
  case updateWork => exact fun s phase h work => execUpdate_eq_fault.2 ⟨phase, .inr ⟨h, .inl ⟨work, rfl⟩⟩⟩
  case updateI => exact fun s phase h work i => execUpdate_eq_fault.2 ⟨phase, .inr ⟨h, .inr ⟨work, .inl ⟨i, rfl⟩⟩⟩⟩
  case updateN =>
    exact fun s phase h work i n => execUpdate_eq_fault.2 ⟨phase, .inr ⟨h, .inr ⟨work, .inr ⟨i, n, rfl⟩⟩⟩⟩
  case serialize => exact fun s phase h => execSerialize_eq_fault.2 ⟨phase, h, rfl⟩
  case takeHex =>
    exact fun s phase takeq hex => execTake_eq_fault.2 ⟨State.takeEnabled_eq_true.2 ⟨takeq, .inl phase⟩,
      State.takeResult_eq_error.2 ⟨phase, .inl ⟨hex, rfl⟩⟩⟩
  case takeDigestb =>
    exact fun s phase takeq hex digestb => execTake_eq_fault.2 ⟨State.takeEnabled_eq_true.2 ⟨takeq, .inl phase⟩,
      State.takeResult_eq_error.2 ⟨phase, .inr ⟨hex, digestb, rfl⟩⟩⟩

/-- Settles O31: the block file, the schedule's range and the constant table each stop at an index they do not hold. -/
theorem indicesOutsideTheirFilesStop : Obligations.IndicesOutsideTheirFilesStop := by
  refine ⟨fun s k blocks phase i blk past_end => ?_, fun s t phase t_eq outside => ?_,
    fun s t r phase t_eq work past_end => ?_⟩
  · exact execSchld_eq_fault.2 ⟨phase, .inr ⟨k, i, State.readBlk_of_length_le blk past_end⟩⟩
  · exact execSchexp_eq_fault.2 ⟨phase, .inr ⟨t, t_eq, State.expandWord_of_outside outside⟩⟩
  · have written : s.work ≠ none := by rw [work]; exact nofun
    exact execRound_eq_fault.2 ⟨phase, .inr ⟨t, t_eq, .inr ⟨written, .inl (readK_of_lt past_end)⟩⟩⟩

/-! ### HASH in REQ (R170) -/

/-- CREATE is selected by IDLE only (R84). -/
theorem phase_of_decodePhase_create {c : BitVec 4} (h : decodePhase c = .ok .create) : c = Phase.idle.code := by
  obtain ⟨p, rfl⟩ := exists_phase_of_decodePhase h
  cases p with
  | idle => rfl
  | _ => cases h

/-- Settles O13: HASH completes exactly where REQ is empty, and only IDLE selects the CREATE that empties it. -/
theorem hashIsHeldInTheRequest : Obligations.HashIsHeldInTheRequest := by
  refine ⟨fun s n fits empty => ⟨⟨BitVec.ofNat 64 n⟩, ?_, ?_⟩, fun s n => ?_, fun s not_idle selected => ?_⟩
  · exact (BitVec.toNat_ofNat n 64).trans (Nat.mod_eq_of_lt fits)
  · exact execHash_eq_next.2 (.inl ⟨empty, rfl⟩)
  · exact Option.isNone_iff_eq_none
  · exact not_idle (phase_of_decodePhase_create selected)

end Sys2Proof.Machine
end

section
/-! HOST's message space MSG: its cells under a write of HOST (R50), the copy CREATE takes of it (R57, R120, log 3), and
what neither MSG nor a waiting request reaches: the operations of a call (R57, R170) and the outputs in DONE (R62). -/

namespace Sys2Proof.Machine

/-! ### HOST's write (R50) -/

/-- Settles O10: the step is HOST's own, and a cell reads what was last written to it. -/
theorem storeWritesOneMessageCell : Obligations.StoreWritesOneMessageCell := by
  intro s a b rest waiting
  refine ⟨{ s with inputs := rest, msg := s.msg.write a.toNat b }, ?_, rfl, Memory.read_write_same _ _ _,
    fun _ other => Memory.read_write_other _ _ other⟩
  rw [step, nextMove_of_store waiting]

/-! ### The copy of the message (R57, R120), and where it stops (R186, log 3) -/

section
variable {m : Memory} {a j n : Nat}

theorem Memory.readBytes_succ_of_missing (missing : m.read a = none) :
    m.readBytes a (n + 1) = .error (.noSuchElement (.msg a)) := by
  rw [Memory.readBytes, missing]

theorem Memory.readBytes_succ_of_held {b : Byte} (held : m.read a = some b) :
    m.readBytes a (n + 1) = (b :: ·) <$> m.readBytes (a + 1) n := by
  rw [Memory.readBytes, held]
  cases m.readBytes (a + 1) n <;> rfl

/-- `MemRead` stops at the first cell of its range that holds no byte (log 3). -/
theorem Memory.readBytes_of_first_missing (in_range : j < n) (held : ∀ k, k < j → m.read (a + k) ≠ none)
    (missing : m.read (a + j) = none) : m.readBytes a n = .error (.noSuchElement (.msg (a + j))) := by
  induction n generalizing a j with
  | zero => exact absurd in_range j.not_lt_zero
  | succ n ih =>
    cases j with
    | zero => exact Memory.readBytes_succ_of_missing missing
    | succ j =>
      have shift (k : Nat) : a + (k + 1) = a + 1 + k := by omega
      obtain ⟨b, first⟩ : ∃ b, m.read a = some b := Option.ne_none_iff_exists'.1 (held 0 j.succ_pos)
      have rest := ih (Nat.lt_of_succ_lt_succ in_range)
        (fun k below => shift k ▸ held (k + 1) (Nat.succ_lt_succ below)) (shift j ▸ missing)
      rw [Memory.readBytes_succ_of_held first, rest, shift j]
      rfl

end

/-- With a pending request CREATE stops where the copy of an admitted message stops, and nowhere else. -/
theorem State.accept_eq_error_iff {s : State} {r : Request} {f : Fault} :
    s.accept r = .error f ↔ r.length.toNat ≤ s.msgCap.val ∧ s.msg.readBytes 0 r.length.toNat = .error f := by
  have cap : s.msgCap.val ≤ Config.maxMsgBytes := Nat.le_pred_of_lt s.msgCap.isLt
  unfold State.accept
  dsimp only
  split_ifs with overflow capacity
  · have : ¬r.length.toNat ≤ s.msgCap.val := by omega
    simp [this]
  · simp [capacity.not_ge]
  · simp [not_lt.1 capacity, bind_eq_error]

theorem execCreate_eq_fault {s : State} {f : Fault} :
    execCreate s = .fault f ↔ s.phase = Phase.idle.code ∧ ∃ r, s.req = some r ∧ s.accept r = .error f := by
  unfold execCreate
  cases s.req with
  | none => simp
  | some r => simp [whenEnabled_eq_fault]

/-- Settles O16: the third of CREATE's three answers to a request, and the bytes of its copy. -/
theorem createCopiesTheMessage : Obligations.CreateCopiesTheMessage := by
  intro s r m idle admits
  have copied := Memory.readBytes_length admits.message
  refine ⟨execCreate_eq_next.2 (.inl ⟨idle, r, admits.req,
    State.accept_eq_ok.2 (.inr (.inr ⟨admits.fits, m, admits.message, rfl⟩))⟩), copied, fun j hj => ?_⟩
  have byte := Memory.readBytes_get admits.message j (copied ▸ hj)
  rwa [Nat.zero_add, List.getElem?_eq_getElem hj] at byte

/-- Settles O20: the copy stops at the first missing cell, and CREATE with it. -/
theorem createStopsAtAMissingMessageByte : Obligations.CreateStopsAtAMissingMessageByte := by
  intro s r k idle req fits below held missing
  have stops := Memory.readBytes_of_first_missing (a := 0) below (by simpa using held) (by simpa using missing)
  rw [Nat.zero_add] at stops
  exact execCreate_eq_fault.2 ⟨idle, r, req, State.accept_eq_error_iff.2 ⟨fits, stops⟩⟩

/-! ### A call in progress reads neither REQ nor MSG (R57, R170) -/

/-- The state with another waiting request and another message space. -/
def State.withRequest (s : State) (r : Option Request) (m : Memory) : State := { s with req := r, msg := m }

/-- An operation whose enabling and result read neither REQ nor MSG has an outcome that does not either. -/
theorem whenEnabled_withRequest {e : Bool} {s : State} {r : Option Request} {m : Memory} {act act' : Except Fault State}
    (h : act' = (·.withRequest r m) <$> act) :
    whenEnabled e (s.withRequest r m) act' = mapNext (·.withRequest r m) (whenEnabled e s act) := by
  subst h
  cases e with
  | false => rfl
  | true => cases act <;> rfl

/-- Settles O37: operation by operation, what it reads and what it writes is the same with another REQ and MSG. -/
theorem callIgnoresWaitingRequestAndMessage : Obligations.CallIgnoresWaitingRequestAndMessage := by
  intro i s r m not_create not_hash
  change exec i (s.withRequest r m) = mapNext (·.withRequest r m) (exec i s)
  cases i with
  | hash n => exact absurd rfl (not_hash n)
  | take => exact whenEnabled_withRequest (by rw [map_bind]; rfl)
  | create => exact absurd rfl not_create
  | pad => exact whenEnabled_withRequest (by simp only [map_bind]; rfl)
  | parse => exact whenEnabled_withRequest (by rw [map_bind]; rfl)
  | hinit => exact whenEnabled_withRequest rfl
  | schld => exact whenEnabled_withRequest (by simp only [map_bind]; rfl)
  | schexp => exact whenEnabled_withRequest (by simp only [map_bind, Except.map_ok, apply_ite]; rfl)
  | winit => exact whenEnabled_withRequest (by rw [map_bind]; rfl)
  | round => exact whenEnabled_withRequest (by simp only [map_bind, Except.map_ok, apply_ite]; rfl)
  | update => exact whenEnabled_withRequest (by simp only [map_bind]; rfl)
  | serialize => exact whenEnabled_withRequest (by rw [map_bind]; rfl)
  | discard f => exact whenEnabled_withRequest rfl

/-! ### The outputs in DONE (R62, R175) -/

theorem idle_code_ne_done_code : Phase.idle.code ≠ Phase.done.code := by decide

/-- Settles O40: DISCARD and RESET leave DONE, and no other step from DONE writes the outputs. -/
theorem outputsAreStableInDone : Obligations.OutputsAreStableInDone := by
  intro s t next (done : s.phase = Phase.done.code) (stays : t.phase = Phase.done.code)
  rcases nextMove_cases s with ⟨inputs, move⟩ | ⟨n, inputs, move⟩ | ⟨inputs, move⟩ | ⟨index, byte, inputs, move⟩ |
    ⟨inputs, move⟩ | move <;> rw [step, move] at next
  · have selects : coreMove { s with inputs := inputs } = .run (.discard false) _ := coreMove_of_phase done rfl
    rw [selects] at next
    rcases execDiscard_eq_next.1 next with ⟨-, rfl⟩ | ⟨-, rfl⟩
    · exact absurd stays idle_code_ne_done_code
    · exact ⟨rfl, rfl⟩
  · rw [execHash_frame next]
    exact ⟨rfl, rfl⟩
  · rw [execTake_frame next]
    exact ⟨rfl, rfl⟩
  · cases next
    exact ⟨rfl, rfl⟩
  · cases next
    exact absurd stays idle_code_ne_done_code
  · cases next

end Sys2Proof.Machine
end

section
/-! The codes of the operations: decoder and encoder are inverse to each other, and the reserved codes are no operations
(R81, R84 to R86, R90). -/

namespace Sys2Proof.Machine

/-! ### Format H, the host commands (R81) -/

@[simp] theorem decodeCommand_hash (length : BitVec 64) : decodeCommand 0b01#2 length = .ok (.hash length.toNat) := rfl

@[simp] theorem decodeCommand_take (length : BitVec 64) : decodeCommand 0b10#2 length = .ok .take := rfl

@[simp] theorem decodeCommand_noCommand (length : BitVec 64) : decodeCommand 0b00#2 length = .error .noCommand := rfl

@[simp] theorem decodeCommand_reserved (length : BitVec 64) : decodeCommand 0b11#2 length = .error .reservedCommand := rfl

/-- HASH and TAKE are the only commands, each with one code. -/
theorem decodeCommand_eq_ok_iff {cmd : BitVec 2} {length : BitVec 64} {i : Instr} :
    decodeCommand cmd length = .ok i ↔ (cmd = 0b01#2 ∧ i = .hash length.toNat) ∨ (cmd = 0b10#2 ∧ i = .take) := by
  obtain rfl | rfl | rfl | rfl : cmd = 0b00#2 ∨ cmd = 0b01#2 ∨ cmd = 0b10#2 ∨ cmd = 0b11#2 := by bv_omega
  all_goals simp [eq_comm]

/-- A step that meets the reserved command is refused (R86). -/
theorem step_of_reservedCommand {s : State} {length : BitVec 64} {rest : List Input}
    (h : s.inputs = .command 0b11#2 length :: rest) : step s = .refused .reservedCommand := by
  simp only [step, nextMove, h, decodeCommand_reserved]

/-! ### Format U, the phase codes (R84) -/

/-- The phase codes above FAULT's select no operation (R86). -/
theorem decodePhase_of_reserved {code : BitVec 4} (h : 12 ≤ code.toNat) :
    decodePhase code = .error (.reservedPhase code) := by
  obtain rfl | rfl | rfl | rfl : code = 12#4 ∨ code = 13#4 ∨ code = 14#4 ∨ code = 15#4 := by bv_omega
  all_goals rfl

/-- The operation a phase selects is well formed and has the phase's code (R84, R85). -/
theorem encode_of_decodePhase {code : BitVec 4} {i : Instr} (h : decodePhase code = .ok i) :
    i.wf = true ∧ encode i = .u code := by
  obtain ⟨p, rfl⟩ := exists_phase_of_decodePhase h
  cases (decodePhase_code p).symm.trans h
  cases p <;> exact ⟨rfl, rfl⟩

/-! ### The statements -/

/-- Settles O1: LENGTH of HASH fits its 64 bits, and every other operation has one code, DISCARD one for each `f`. -/
theorem decodeReadsBackEveryEncoding : Obligations.DecodeReadsBackEveryEncoding := by
  intro i wf
  cases i with
  | hash length =>
    have fits : length < 2 ^ 64 := of_decide_eq_true wf
    rw [encode, decode, decodeCommand_hash, BitVec.toNat_ofNat, Nat.mod_eq_of_lt fits]
  | discard f => cases f <;> rfl
  | _ => rfl

/-- Settles O2: HASH and TAKE are the only host commands, and each phase code names its operation. -/
theorem decodedOperationsReencode : Obligations.DecodedOperationsReencode := by
  refine ⟨fun cmd length i decoded => ?_, fun code i decoded => encode_of_decodePhase decoded⟩
  rcases decodeCommand_eq_ok_iff.1 decoded with ⟨rfl, rfl⟩ | ⟨rfl, rfl⟩
  · exact ⟨decide_eq_true length.isLt, length, by simp [encode], fun _ => rfl⟩
  · exact ⟨rfl, 0#64, rfl, fun hash_code => absurd hash_code (by decide)⟩

/-- Settles O3: by the reserved codes of both formats, and the refusal of the reserved command. -/
theorem reservedCodesAreNoOperations : Obligations.ReservedCodesAreNoOperations :=
  ⟨decodeCommand_reserved, decodeCommand_noCommand, fun _ reserved => decodePhase_of_reserved reserved,
    fun _ _ _ waiting => step_of_reservedCommand waiting⟩

/-- Settles O4: the six codes, as the decoder reads them. -/
theorem wordsOfTheCodeTablesDecode : Obligations.WordsOfTheCodeTablesDecode :=
  ⟨rfl, rfl, rfl, rfl, rfl, rfl⟩

end Sys2Proof.Machine
end

section
/-! The data formats (R71 to R79, R125, R131): bytes and words, the fields of the padded message, what the blocks keep of
it, and where a digest byte stands in DIGEST. -/

namespace Sys2Proof.Machine

/-! ### Bytes of a word (R76) -/

theorem be32_wordBE (b0 b1 b2 b3 : Byte) : be32 (wordBE b0 b1 b2 b3) = [b0, b1, b2, b3] := by
  rw [be32, wordBE_byte3, wordBE_byte2, wordBE_byte1, wordBE_byte0]

/-- A word is determined by its four bytes. -/
theorem word_eq_of_bytes {v w : Word}
    (bytes : ∀ j, j < 4 → v.extractLsb' (24 - 8 * j) 8 = w.extractLsb' (24 - 8 * j) 8) : v = w := by
  rw [← wordBE_extract v, ← wordBE_extract w]
  exact congr (congr (congr (congrArg wordBE (bytes 0 (by omega))) (bytes 1 (by omega))) (bytes 2 (by omega)))
    (bytes 3 (by omega))

theorem extractLsb'_extractLsb'_of_le {w start len start' len' : Nat} (x : BitVec w) (inside : start' + len' ≤ len) :
    (x.extractLsb' start len).extractLsb' start' len' = x.extractLsb' (start + start') len' := by
  ext j hj
  simp [show start' + j < len by omega, Nat.add_assoc]

/-- Settles O46: the assembled value, the four bytes, and the two compositions. -/
theorem bytesAndWordsAreInverse : Obligations.BytesAndWordsAreInverse :=
  ⟨wordBE_toNat, fun _ => rfl, be32_wordBE, wordBE_extract⟩

/-! ### The zero count (R72) -/

/-- Settles O47: `zeroFill n` is the remainder of `55 - n`, and each claim is arithmetic on that remainder. -/
theorem zeroFillIsTheLeast : Obligations.ZeroFillIsTheLeast := by
  intro n
  have remainder : (zeroFill n : Int) = (55 - (n : Int)) % 64 := by
    unfold zeroFill
    omega
  refine ⟨zeroFill_spec n, fun k filled => ?_, ?_, remainder, fun low => ?_, fun high => ?_, ?_, ?_, ?_,
    fun k filled => ?_⟩ <;> omega

/-! ### The four fields of the padded message (R71, R125) -/

theorem padMessage_eq (m : List Byte) :
    padMessage m = m ++ delimiter :: (List.replicate (zeroFill m.length) 0x00#8 ++ be64 (bitLength m.length)) := by
  simp [padMessage, paddedBytes]

theorem padMessage_take (m : List Byte) : (padMessage m).take m.length = m := by
  rw [padMessage_eq, List.take_left]

theorem padMessage_delimiter (m : List Byte) : (padMessage m)[m.length]? = some delimiter := by
  rw [padMessage_eq, List.getElem?_append_right le_rfl, Nat.sub_self, List.getElem?_cons_zero]

theorem padMessage_zero (m : List Byte) {k : Nat} (after : m.length < k) (before : k + 8 < (padMessage m).length) :
    (padMessage m)[k]? = some 0x00#8 := by
  obtain ⟨j, rfl⟩ : ∃ j, k = m.length + (j + 1) := ⟨k - m.length - 1, by omega⟩
  have in_zeros : j < zeroFill m.length := by
    rw [padMessage, paddedBytes_length] at before
    omega
  rw [padMessage_eq, List.getElem?_append_right (Nat.le_add_right _ _), Nat.add_sub_cancel_left, List.getElem?_cons_succ,
    List.getElem?_append_left (by simpa using in_zeros), List.getElem?_replicate_of_lt in_zeros]

/-- The last eight bytes are the length field. -/
theorem padMessage_drop (m : List Byte) :
    (padMessage m).drop ((padMessage m).length - 8) = be64 (bitLength m.length) := by
  have field_last : padMessage m =
      (m ++ delimiter :: List.replicate (zeroFill m.length) 0x00#8) ++ be64 (bitLength m.length) := by
    simp [padMessage_eq]
  rw [field_last, List.length_append, be64_length, Nat.add_sub_cancel, List.drop_left]

/-- Settles O48: the padded message is put together from its four fields. -/
theorem paddedMessageHasItsFourFields : Obligations.PaddedMessageHasItsFourFields := fun m =>
  ⟨padMessage_length m, padMessage_take m, padMessage_delimiter m, fun _ after before => padMessage_zero m after before,
    padMessage_drop m⟩

/-! ### What the blocks keep (R75, R131) -/

/-- Splitting the words gives the bytes back. -/
theorem wordsBE_flatMap_be32 {p : List Byte} (whole : p.length % 4 = 0) : (wordsBE p).flatMap be32 = p := by
  fun_induction wordsBE p with
  | case1 b0 b1 b2 b3 rest ih =>
    have rest_whole : rest.length % 4 = 0 := by
      simp only [List.length_cons] at whole
      omega
    rw [List.flatMap_cons, be32_wordBE, ih rest_whole]
    rfl
  | case2 p short =>
    have no_word : p.length / 4 = 0 := by rw [← wordsBE_length, wordsBE.eq_2 p short, List.length_nil]
    exact (List.eq_nil_of_length_eq_zero (by omega)).symm

/-- The words of the blocks are the words that were grouped. -/
theorem chunks16_flatMap_toList {ws : List Word} (whole : ws.length % 16 = 0) :
    (chunks16 ws).flatMap Vector.toList = ws := by
  fun_induction chunks16 ws with
  | case1 w0 w1 w2 w3 w4 w5 w6 w7 w8 w9 w10 w11 w12 w13 w14 w15 rest ih =>
    have rest_whole : rest.length % 16 = 0 := by
      simp only [List.length_cons] at whole
      omega
    rw [List.flatMap_cons, ih rest_whole]
    rfl
  | case2 ws short =>
    have no_block : ws.length / 16 = 0 := by rw [← chunks16_length, chunks16.eq_2 ws short, List.length_nil]
    exact (List.eq_nil_of_length_eq_zero (by omega)).symm

/-- Splitting the words of all blocks gives the bytes back (R131). -/
theorem parseBlocks_flatMap {p : List Byte} (whole : p.length % 64 = 0) :
    (parseBlocks p).flatMap (fun b => b.toList.flatMap be32) = p := by
  rw [parseBlocks, ← List.flatMap_assoc, chunks16_flatMap_toList (by rw [wordsBE_length]; omega),
    wordsBE_flatMap_be32 (by omega)]

/-- The blocks determine the padded message. -/
theorem padMessage_eq_of_padAndParse_eq {m m' : List Byte} (same : padAndParse m = padAndParse m') :
    padMessage m = padMessage m' := by
  have whole (m : List Byte) : (padMessage m).length % 64 = 0 := by rw [padMessage_length, Nat.mul_mod_right]
  rw [← parseBlocks_flatMap (whole m), ← parseBlocks_flatMap (whole m')]
  exact congrArg (List.flatMap fun b => b.toList.flatMap be32) same

/-! ### The length field in the last block (R74, R131) -/

/-- Grouping the bytes of words gives the words back, and goes on after them. -/
theorem wordsBE_flatMap_append (ws : List Word) (p : List Byte) :
    wordsBE (ws.flatMap be32 ++ p) = ws ++ wordsBE p := by
  induction ws with
  | nil => rfl
  | cons w ws ih =>
    rw [List.flatMap_cons, List.append_assoc]
    simp only [be32, List.cons_append, List.nil_append, wordsBE, wordBE_extract, ih]

theorem wordsBE_append {p : List Byte} (whole : p.length % 4 = 0) (q : List Byte) :
    wordsBE (p ++ q) = wordsBE p ++ wordsBE q := by
  rw [← wordsBE_flatMap_append, wordsBE_flatMap_be32 whole]

/-- The length field is two words, the high one first (R74). -/
theorem wordsBE_be64 (v : BitVec 64) : wordsBE (be64 v) = [v.extractLsb' 32 32, v.extractLsb' 0 32] := by
  have split_in_two : be64 v = [v.extractLsb' 32 32, v.extractLsb' 0 32].flatMap be32 ++ [] := by
    simp [be64, be32, extractLsb'_extractLsb'_of_le]
  rw [split_in_two, wordsBE_flatMap_append]
  rfl

/-- The words of the padded message end with the two words of the length field. -/
theorem wordsBE_padMessage (m : List Byte) :
    ∃ front : List Word, front.length + 2 = 16 * (padAndParse m).length ∧ wordsBE (padMessage m) =
      front ++ [(bitLength m.length).extractLsb' 32 32, (bitLength m.length).extractLsb' 0 32] := by
  have length_eq : (padMessage m).length = 64 * (padAndParse m).length := by rw [padMessage_length, padAndParse_length]
  have positive := padAndParse_length_pos m
  have before_length : ((padMessage m).take ((padMessage m).length - 8)).length = (padMessage m).length - 8 := by
    rw [List.length_take]
    omega
  refine ⟨wordsBE ((padMessage m).take ((padMessage m).length - 8)), ?_, ?_⟩
  · rw [wordsBE_length, before_length]
    omega
  · rw [← wordsBE_be64, ← padMessage_drop, ← wordsBE_append (by omega), List.take_append_drop]

/-- Words 14 and 15 of the last block are the length field. -/
theorem padAndParse_last_words (m : List Byte) :
    ((padAndParse m)[(padAndParse m).length - 1]?.map fun b => (b[14], b[15])) =
      some ((bitLength m.length).extractLsb' 32 32, (bitLength m.length).extractLsb' 0 32) := by
  obtain ⟨front, front_length, words⟩ := wordsBE_padMessage m
  have positive := padAndParse_length_pos m
  obtain ⟨b, last⟩ : ∃ b, (padAndParse m)[(padAndParse m).length - 1]? = some b :=
    ⟨_, List.getElem?_eq_getElem (by omega)⟩
  have word (j : Nat) (hj : j < 16) :
      some b[j] = (wordsBE (padMessage m))[16 * ((padAndParse m).length - 1) + j]? := by
    have in_words : 16 * ((padAndParse m).length - 1) + 15 < (wordsBE (padMessage m)).length := by
      rw [words, List.length_append, List.length_cons, List.length_singleton]
      omega
    rw [List.getElem?_eq_getElem (by omega), ← chunks16_get _ _ j in_words hj]
    exact (congrArg (Option.map fun b : Block => b[j]) last).symm
  have high : b[14] = (bitLength m.length).extractLsb' 32 32 := by
    simpa [words, show 16 * ((padAndParse m).length - 1) + 14 = front.length by omega] using word 14 (by omega)
  have low : b[15] = (bitLength m.length).extractLsb' 0 32 := by
    simpa [words, show 16 * ((padAndParse m).length - 1) + 15 = front.length + 1 by omega] using word 15 (by omega)
  rw [last, Option.map_some, high, low]

/-- The two words of the length field determine the length of an admitted message (R121). -/
theorem length_eq_of_length_field {n n' : Nat} (fits : n ≤ 2 ^ 61 - 1) (fits' : n' ≤ 2 ^ 61 - 1)
    (high : (bitLength n).extractLsb' 32 32 = (bitLength n').extractLsb' 32 32)
    (low : (bitLength n).extractLsb' 0 32 = (bitLength n').extractLsb' 0 32) : n = n' := by
  have high_nat := congrArg BitVec.toNat high
  have low_nat := congrArg BitVec.toNat low
  simp only [bitLength, BitVec.extractLsb'_toNat, BitVec.toNat_ofNat, Nat.shiftRight_eq_div_pow] at high_nat low_nat
  omega

/-- Settles O50: each grouping is undone by its splitting, and the length field says where the message ends. -/
theorem parsingLosesNothing : Obligations.ParsingLosesNothing := by
  refine ⟨fun p whole => parseBlocks_flatMap whole, fun m m' fits fits' same => ?_, padAndParse_last_words⟩
  have length_field := padAndParse_last_words m
  rw [same, padAndParse_last_words m', Option.some_inj, Prod.mk.injEq] at length_field
  obtain ⟨high, low⟩ := length_field
  rw [← padMessage_take m, ← padMessage_take m', padMessage_eq_of_padAndParse_eq same,
    length_eq_of_length_field fits fits' high.symm low.symm]

/-! ### DIGEST (R79) -/

/-- The number of a byte sequence whose first byte is the lowest. -/
def lowByteFirst (l : List Byte) : BitVec 256 := l.foldr (fun b acc => acc <<< 8 ||| b.setWidth 256) 0#256

theorem lowByteFirst_cons (b : Byte) (l : List Byte) :
    lowByteFirst (b :: l) = lowByteFirst l <<< 8 ||| b.setWidth 256 := rfl

/-- DIGEST read from its last byte up (R79). -/
theorem digestNumber_eq (d : Vector Byte 32) : digestNumber d = lowByteFirst d.toList.reverse :=
  List.foldl_eq_foldr_reverse

theorem lowByteFirst_get {l : List Byte} {k : Nat} (in_list : k < l.length) (in_number : k < 32) :
    (lowByteFirst l).extractLsb' (8 * k) 8 = l[k] := by
  induction l generalizing k with
  | nil => simp at in_list
  | cons b l ih =>
    rw [lowByteFirst_cons]
    cases k with
    | zero =>
      ext j hj
      simp [hj, show j < 256 by omega]
    | succ k =>
      rw [List.getElem_cons_succ, ← ih (by simpa using in_list) (by omega)]
      ext j hj
      simp [show 8 * (k + 1) + j = 8 * k + j + 8 by omega, show 8 * k + j + 8 < 256 by omega,
        ← BitVec.getLsbD_eq_getElem]

/-- Byte `m` of DIGESTB is bits `255 - 8*m` to `248 - 8*m` of DIGEST. -/
theorem digestNumber_byte (d : Vector Byte 32) {m : Nat} (hm : m < 32) :
    (digestNumber d).extractLsb' (248 - 8 * m) 8 = d[m] := by
  rw [digestNumber_eq, show 248 - 8 * m = 8 * (31 - m) by omega,
    lowByteFirst_get (by rw [List.length_reverse, Vector.length_toList]; omega) (by omega), List.getElem_reverse]
  simp [show 31 - (31 - m) = m by omega]

/-- `H[k]` is bits `255 - 32*k` to `224 - 32*k` of DIGEST, because its four bytes are. -/
theorem digestNumber_word (h : Vector Word 8) {k : Nat} (hk : k < 8) :
    (digestNumber (digestBytes h)).extractLsb' (224 - 32 * k) 32 = h[k] := by
  refine word_eq_of_bytes fun j hj => ?_
  rw [extractLsb'_extractLsb'_of_le _ (by omega), ← digestBytes_get h hk hj, ← digestNumber_byte _ (by omega)]
  congr 1
  omega

/-- Settles O51: byte by byte, and word by word through the bytes. -/
theorem digestNumberHoldsTheBytes : Obligations.DigestNumberHoldsTheBytes :=
  ⟨fun d _ hm => digestNumber_byte d hm, fun h _ hk => digestNumber_word h hk⟩

end Sys2Proof.Machine
end

section
/-! The word functions bit by bit (R100 to R109), and the constant tables with the step that loads the first of them
(R110 to R112, R140). -/

namespace Sys2Proof.Machine

/-! ### Addition (R100) -/

theorem add32_toNat (x y : Word) : (add32 x y).toNat = (x.toNat + y.toNat) % 2 ^ 32 := by
  rw [add32_eq, BitVec.toNat_add]

/-- Settles O41: `add32` is the addition of `BitVec 32`, and reducing a partial sum does not change the residue. -/
theorem additionIsModuloTwoToThe32 : Obligations.AdditionIsModuloTwoToThe32 := by
  refine ⟨add32_toNat, fun x y => ?_, fun x y z => ?_, fun v x y z w => ?_⟩
  · simp only [add32_eq, BitVec.add_comm]
  · simp only [add32_eq, BitVec.add_assoc]
  · simp only [add32_toNat, Nat.mod_add_mod]

/-! ### Shifts and rotations (R102, R103) -/

/-- A right shift brings in zeros above (R102). -/
theorem shr_getLsbD (x : Word) (n k : Nat) : (shr x n).getLsbD k = (decide (k + n < 32) && x.getLsbD (k + n)) := by
  rw [shr, BitVec.getLsbD_ushiftRight, Nat.add_comm]
  by_cases inside : k + n < 32
  · simp [inside]
  · simp [inside, BitVec.getLsbD_of_ge x (k + n) (by omega)]

theorem shr_toNat (x : Word) (n : Nat) : (shr x n).toNat = x.toNat / 2 ^ n := by
  rw [shr, BitVec.toNat_ushiftRight, Nat.shiftRight_eq_div_pow]

theorem shl_toNat (x : Word) (n : Nat) : (shl x n).toNat = x.toNat * 2 ^ n % 2 ^ 32 := by
  rw [shl, BitVec.toNat_shiftLeft, Nat.shiftLeft_eq]

section
variable {n : Nat} (bound : 0 < n ∧ n < 32)
include bound

theorem rotr_eq_rotateRight (x : Word) : rotr x n bound = x.rotateRight n := by
  rw [BitVec.rotateRight_def, Nat.mod_eq_of_lt bound.2]
  rfl

/-- A rotation moves bit `(k + n) mod 32` to bit `k` (R103). -/
theorem rotr_getLsbD (x : Word) {k : Nat} (hk : k < 32) : (rotr x n bound).getLsbD k = x.getLsbD ((k + n) % 32) := by
  obtain ⟨-, below⟩ := bound
  rw [rotr_eq_rotateRight, BitVec.getLsbD_rotateRight_of_lt below]
  by_cases stays : k < 32 - n
  · simp [stays, show (k + n) % 32 = n + k by omega]
  · simp [stays, hk, show (k + n) % 32 = k - (32 - n) by omega]

/-- The two halves of a rotation share no set bit (R103). -/
theorem rotr_halves_disjoint (x : Word) : (x >>> n) &&& (x <<< (32 - n)) = 0#32 := by
  obtain ⟨-, below⟩ := bound
  ext k hk
  by_cases low : k < 32 - n
  · simp [low]
  · simp [BitVec.getLsbD_of_ge x (n + k) (by omega)]

end

/-- Words that share no set bit are joined by `xor` as by `or`. -/
theorem xor_eq_or_of_disjoint {w : Nat} {x y : BitVec w} (disjoint : x &&& y = 0#w) : x ^^^ y = x ||| y := by
  ext k hk
  have not_both : x[k] = true → y[k] = false := by simpa using congrArg (fun v => v[k]) disjoint
  cases hx : x[k]
  · simp [hx]
  · simp [hx, not_both hx]

/-- Settles O42: bit `k` of a rotation or shift, and the join of a rotation's two halves, which are disjoint. -/
theorem rotationsAndShiftsMoveBits : Obligations.RotationsAndShiftsMoveBits := by
  refine ⟨fun x n bound k hk => rotr_getLsbD bound x hk, fun x n bound => ?_, fun x n k _ _ _ => ?_,
    fun x n _ _ => ⟨shr_toNat x n, shl_toNat x n⟩⟩
  · have disjoint := rotr_halves_disjoint bound x
    refine ⟨rfl, (xor_eq_or_of_disjoint disjoint).symm, ?_⟩
    rw [add32_eq, BitVec.add_eq_or_of_and_eq_zero _ _ disjoint]
    rfl
  · rw [shr_getLsbD]
    by_cases inside : k + n ≤ 31
    · simp [inside, show k + n < 32 by omega]
    · simp [inside, show ¬ k + n < 32 by omega]

/-! ### Selection and majority (R104, R105) -/

theorem ch_getLsbD (x y z : Word) {k : Nat} (hk : k < 32) :
    (ch x y z).getLsbD k = if x.getLsbD k then y.getLsbD k else z.getLsbD k := by
  have bits : (ch x y z).getLsbD k = ((x.getLsbD k && y.getLsbD k) ^^ (!x.getLsbD k && z.getLsbD k)) := by
    simp [ch, hk]
  rw [bits]
  cases x.getLsbD k
  · simp
  · simp

/-- The xor of the three pairwise products of bits is their majority. -/
theorem majority_eq_decide : ∀ a b c : Bool,
    (((a && b) ^^ (a && c)) ^^ (b && c)) = decide (2 ≤ a.toNat + b.toNat + c.toNat) := by decide

theorem maj_getLsbD (x y z : Word) (k : Nat) :
    (maj x y z).getLsbD k = decide (2 ≤ (x.getLsbD k).toNat + (y.getLsbD k).toNat + (z.getLsbD k).toNat) := by
  rw [← majority_eq_decide]
  simp only [maj, BitVec.getLsbD_xor, BitVec.getLsbD_and]

/-- Settles O43: bit by bit, Ch is a choice by `x`'s bit and Maj the majority of three bits. -/
theorem chSelectsAndMajVotes : Obligations.ChSelectsAndMajVotes :=
  fun x y z k hk => ⟨ch_getLsbD x y z hk, maj_getLsbD x y z k⟩

/-! ### The sigma functions (R106 to R109) -/

/-- Settles O44: each sigma is the xor of three words whose bits `rotr_getLsbD` and `shr_getLsbD` give. -/
theorem sigmasCombineRotationsAndShifts : Obligations.SigmasCombineRotationsAndShifts := by
  intro x k hk
  refine ⟨?_, ?_, ?_, ?_⟩
  · simp only [bsig0, BitVec.getLsbD_xor, rotr_getLsbD _ x hk]
  · simp only [bsig1, BitVec.getLsbD_xor, rotr_getLsbD _ x hk]
  · simp only [ssig0, BitVec.getLsbD_xor, rotr_getLsbD _ x hk, shr_getLsbD]
  · simp only [ssig1, BitVec.getLsbD_xor, rotr_getLsbD _ x hk, shr_getLsbD]

/-! ### The constant tables (R110 to R112, R140) -/

/-- Settles O23: HINIT in its phase loads the table `iv`, whose words are those of R110. -/
theorem hinitLoadsTheInitialValues : Obligations.HinitLoadsTheInitialValues :=
  fun _ phase => execHinit_eq_next.2 (.inl ⟨phase, rfl⟩)

/-- The checksums of K (V18). -/
theorem kTable_checksums :
    kTable.toList.foldl (· ^^^ ·) 0#32 = 0x95c49cf5#32 ∧ kTable.toList.foldl (· + ·) 0#32 = 0x941d1755#32 := by
  decide +kernel

/-- The checksums of IV (V18). -/
theorem iv_checksums :
    iv.toList.foldl (· ^^^ ·) 0#32 = 0xc62760eb#32 ∧ iv.toList.foldl (· + ·) 0#32 = 0x6ea8df67#32 := by
  decide

/-- The compression of sixteen zero words from the initial hash value (V25). -/
theorem compress_iv_zeros : compress iv (Vector.replicate 16 0#32) =
    #v[0xda5698be#32, 0x17b9b469#32, 0x62335799#32, 0x779fbeca#32,
       0x8ce5d491#32, 0xc0d26243#32, 0xbafef9ea#32, 0x1837a9d8#32] := by
  decide +kernel

/-- Settles O45: the words of K one by one, the four checksums of V18 as folds over the tables, and V25. -/
theorem tablesHaveTheirChecksums : Obligations.TablesHaveTheirChecksums := by
  obtain ⟨k_xor, k_sum⟩ := kTable_checksums
  obtain ⟨iv_xor, iv_sum⟩ := iv_checksums
  exact ⟨rfl, k_xor, k_sum, iv_xor, iv_sum, compress_iv_zeros⟩

end Sys2Proof.Machine
end

section
/-! The preprocessor (R121 to R130): the bit counter, what PAD appends, how many blocks that makes, and where each byte of
the padded message stands in the blocks PARSE cuts. -/

namespace Sys2Proof.Machine

/-! ### The bit counter (R121) -/

theorem bitLength_toNat {n : Nat} (fits : n ≤ 2 ^ 61 - 1) : (bitLength n).toNat = 8 * n := by
  rw [bitLength, BitVec.toNat_ofNat]
  omega

/-- Settles O17: eight times an admitted length stays below `2^64`. -/
theorem bitLengthNeverWraps : Obligations.BitLengthNeverWraps := by
  intro n fits
  rw [bitLength_toNat fits]
  omega

/-! ### PAD (R124) -/

/-- Settles O21: with its three operands written PAD completes, and `zeroFill n` is R72's remainder. -/
theorem padAppendsThePadding : Obligations.PadAppendsThePadding :=
  fun _ n m l phase n_eq mbuf l_eq => execPad_eq_next.2 (.inl ⟨phase, n, m, l, n_eq, mbuf, l_eq, rfl⟩)

/-! ### The block count (R127) -/

/-- The block count is the rounded-up quotient of the bytes that the message, the delimiter and the length field take. -/
theorem blockCount_eq_bytes_ceil (n : Nat) : blockCount n = (n + 9 + 63) / 64 := by
  unfold blockCount
  omega

/-- The same quotient counted in bits, with one bit of the delimiter. -/
theorem blockCount_eq_bits_ceil (n : Nat) : blockCount n = (8 * n + 65 + 511) / 512 := by
  unfold blockCount
  omega

/-- A message takes `k + 1` blocks exactly when its length is in the `k`-th range of 64 lengths, the first cut at 55. -/
theorem blockCount_eq_succ_iff {n k : Nat} : blockCount n = k + 1 ↔ 64 * k ≤ n + 8 ∧ n + 8 < 64 * k + 64 := by
  unfold blockCount
  omega

/-- Settles O49: the blocks are counted by `blockCount`, and its forms, ranges and bound are arithmetic on one quotient. -/
theorem blockCountHasThreeForms : Obligations.BlockCountHasThreeForms := by
  refine ⟨fun m => ⟨parseBlocks_length _, blockCount_eq m⟩, fun n => ?_, rfl⟩
  refine ⟨rfl, blockCount_eq_bytes_ceil n, blockCount_eq_bits_ceil n, Nat.succ_pos _, ?_, ?_, ?_, fun fits => ?_⟩
  · rw [blockCount_eq_succ_iff (k := 0)]
    omega
  · rw [blockCount_eq_succ_iff (k := 1)]
    omega
  · rw [blockCount_eq_succ_iff (k := 2)]
    omega
  · rw [blockCount_eq_bytes_ceil]
    omega

/-! ### PARSE (R130) -/

/-- Word `j` of block `i` is made of the four bytes from index `64*i + 4*j`, the first most significant (R75, R76). -/
theorem parseBlocks_word (p : List Byte) {i j : Nat} (hi : i < p.length / 64) (hj : j < 16) :
    (parseBlocks p)[i]?.map (fun b => b[j]) =
      some (wordBE p[64 * i + 4 * j] p[64 * i + 4 * j + 1] p[64 * i + 4 * j + 2] p[64 * i + 4 * j + 3]) := by
  have block_in_words : 16 * i + 15 < (wordsBE p).length := by
    rw [wordsBE_length]
    omega
  have first_byte : 4 * (16 * i + j) = 64 * i + 4 * j := by omega
  have word := wordsBE_get p (16 * i + j) (by omega)
  simp only [first_byte] at word
  rw [parseBlocks, chunks16_get _ _ _ block_in_words hj, ← word, List.getElem?_eq_getElem]

/-- Settles O22: PARSE writes `parseBlocks` of PBUF, whose words are the assembled values of their four bytes. -/
theorem parseCutsTheBytesIntoBlocks : Obligations.ParseCutsTheBytesIntoBlocks := by
  refine fun s p phase written => ⟨parseBlocks p, ?_, parseBlocks_length p, fun i j hi hj => ?_⟩
  · exact execParse_eq_next.2 (.inl ⟨phase, p, written, rfl⟩)
  · have value := congrArg (Option.map BitVec.toNat) (parseBlocks_word p hi hj)
    rwa [Option.map_map, Option.map_some, wordBE_toNat] at value

end Sys2Proof.Machine
end

section
/-! The compressor (R144 to R157): what each of its operations does where its operands are written, and the 115 steps
that compress one block. -/

namespace Sys2Proof.Machine

/-! ### The values SCHEXP, ROUND and UPDATE compute, as sums of words (R100, R146, R152, R156) -/

theorem scheduleWord_eq (w2 w7 w15 w16 : Word) : scheduleWord w2 w7 w15 w16 = ssig1 w2 + w7 + ssig0 w15 + w16 := by
  simp only [scheduleWord, add32_eq]

theorem roundStep_eq (r : Working) (k w : Word) :
    roundStep r k w =
      { a := (r.h + bsig1 r.e + ch r.e r.f r.g + k + w) + (bsig0 r.a + maj r.a r.b r.c), b := r.a, c := r.b, d := r.c,
        e := r.d + (r.h + bsig1 r.e + ch r.e r.f r.g + k + w), f := r.e, g := r.f, h := r.g } := by
  simp only [roundStep, add32_eq]

theorem addWorking_eq (h : Vector Word 8) (r : Working) :
    addWorking h r =
      #v[h[0] + r.a, h[1] + r.b, h[2] + r.c, h[3] + r.d, h[4] + r.e, h[5] + r.f, h[6] + r.g, h[7] + r.h] := by
  simp only [addWorking, add32_eq]

/-! ### Each operation where its operands are written -/

section
variable {s : State} {n k blocks : Nat} {b : Block} {h : Vector Word 8} {r : Working} {x w : Word}

theorem State.writeW_of_lt (bound : n < 64) : s.writeW n x = { s with w := s.w.set n (some x) } := by
  have in_file : s.w.setIfInBounds n (some x) = s.w.set n (some x) := by
    ext1 j hj
    rw [Vector.getElem_setIfInBounds, Vector.getElem_set]
  rw [State.writeW, in_file]

theorem execSchld_of_block (phase : s.phase = Phase.schld.code) (i_eq : s.i = some k) (block : s.readBlk k = .ok b) :
    execSchld s = .next { s with w := loadSchedule b, t := some 16, phase := Phase.schexp.code } :=
  execSchld_eq_next.2 (.inl ⟨phase, k, b, i_eq, block, rfl⟩)

theorem execSchexp_of_word (phase : s.phase = Phase.schexp.code) (t_eq : s.t = some n) (word : s.expandWord n = .ok x) :
    execSchexp s = .next
      { s.writeW n x with
        t := some (if n = 63 then 63 else n + 1)
        phase := if n = 63 then Phase.winit.code else Phase.schexp.code } := by
  refine execSchexp_eq_next.2 (.inl ⟨phase, n, x, t_eq, word, ?_⟩)
  split_ifs with last
  · subst last
    rw [← t_eq]
    rfl
  · rw [← phase]
    rfl

theorem execWinit_of_digest (phase : s.phase = Phase.winit.code) (h_eq : s.h = some h) :
    execWinit s = .next { s with work := some (workingOf h), t := some 0, phase := Phase.round.code } :=
  execWinit_eq_next.2 (.inl ⟨phase, h, h_eq, rfl⟩)

theorem execRound_of_operands (phase : s.phase = Phase.round.code) (t_eq : s.t = some n) (work : s.work = some r)
    (bound : n < 64) (word : s.readW n = .ok w) :
    execRound s = .next
      { s with
        work := some (roundStep r kTable[n] w)
        t := some (if n = 63 then 63 else n + 1)
        phase := if n = 63 then Phase.update.code else Phase.round.code } := by
  refine execRound_eq_next.2 (.inl ⟨phase, n, r, _, w, t_eq, work, readK_eq_ok.2 ⟨bound, rfl⟩, word, ?_⟩)
  split_ifs with last
  · subst last
    rw [State.goto, ← t_eq]
  · rw [← phase]

theorem execUpdate_of_operands (phase : s.phase = Phase.update.code) (h_eq : s.h = some h) (work : s.work = some r)
    (i_eq : s.i = some k) (nblk : s.nblk = some blocks) :
    execUpdate s = .next
      { s with
        h := some (addWorking h r)
        i := some (k + 1)
        phase := if k + 1 = blocks then Phase.serialize.code else Phase.schld.code } := by
  refine execUpdate_eq_next.2 (.inl ⟨phase, h, r, k, blocks, h_eq, work, i_eq, nblk, ?_⟩)
  rw [State.goto, apply_ite Phase.code]

end

/-! ### The statements about one operation -/

/-- Settles O24: the schedule SCHLD leaves is `loadSchedule b`, read word by word. -/
theorem schldLoadsTheBlock : Obligations.SchldLoadsTheBlock := by
  intro s k blocks b phase i_eq blk block
  refine ⟨loadSchedule b, execSchld_of_block phase i_eq (State.readBlk_eq_ok.2 ⟨blocks, blk, block⟩), ?_, ?_⟩
  · intro j hj
    rw [loadSchedule_get b j (by omega), dif_pos hj]
  · intro j hj past_block
    rw [loadSchedule_get b j hj, dif_neg (by omega)]

/-- Settles O25: the four written words give `expandWord` its value, the sum `scheduleWord`. -/
theorem schexpComputesOneWord : Obligations.SchexpComputesOneWord := by
  intro s t w2 w7 w15 w16 low high phase t_eq w2_eq w7_eq w15_eq w16_eq
  have word : s.expandWord t = .ok (scheduleWord w2 w7 w15 w16) :=
    State.expandWord_eq_ok.2 ⟨low, high, w2, w7, w15, w16, State.readW_eq_ok.2 ⟨_, w2_eq⟩,
      State.readW_eq_ok.2 ⟨_, w7_eq⟩, State.readW_eq_ok.2 ⟨_, w15_eq⟩, State.readW_eq_ok.2 ⟨_, w16_eq⟩, rfl⟩
  rw [← scheduleWord_eq]
  refine (execSchexp_of_word phase t_eq word).trans ?_
  rw [State.writeW_of_lt (by omega)]
  rfl

/-- Settles O26: WINIT loads `workingOf` of the digest. -/
theorem winitCopiesTheDigest : Obligations.WinitCopiesTheDigest :=
  fun _ _ phase h_eq => execWinit_of_digest phase h_eq

/-- Settles O27: ROUND is `roundStep` with `K[t]` and `W[t]`, whose words are the sums of R152. -/
theorem roundShiftsTheRegisters : Obligations.RoundShiftsTheRegisters := by
  intro s t r w high phase t_eq work w_eq
  rw [← roundStep_eq]
  exact execRound_of_operands phase t_eq work (by omega) (State.readW_eq_ok.2 ⟨_, w_eq⟩)

/-- Settles O28: UPDATE is `addWorking`, whose words are the sums of R156. -/
theorem updateAddsIntoTheDigest : Obligations.UpdateAddsIntoTheDigest := by
  intro s h r i blocks phase h_eq work i_eq nblk
  rw [← addWorking_eq]
  exact execUpdate_of_operands phase h_eq work i_eq nblk

/-! ### Runs of CORE with no input waiting -/

section
variable {s t u : State} {p : Phase} {i : Instr} {a c : Nat}

/-- With no input waiting, a step gives what the operation of the phase gives (R30). -/
theorem step_of_exec (no_input : s.inputs = []) (phase : s.phase = p.code) (selects : decodePhase p.code = .ok i)
    (next : exec i s = .next t) : step s = .next t :=
  (stepRunsTheDecodedOperation.1 s i no_input (phase ▸ selects)).trans next

theorem runSteps_one (next : step s = .next t) : runSteps 1 s = .next t :=
  runSteps_succ next

theorem runSteps_trans (first : runSteps a s = .next t) (second : runSteps c t = .next u) :
    runSteps (a + c) s = .next u :=
  (runSteps_add first).trans second

end

/-! ### One block (R147, R153, R157) -/

section
variable {s : State} {n k blocks : Nat} {b : Block} {h : Vector Word 8}

/-- With all 64 words written, `W` is the whole schedule of the block. -/
theorem State.scheduled_all_iff : s.Scheduled b 64 ↔ s.w = (schedule b).map some := by
  constructor
  · intro scheduled
    ext1 j hj
    rw [scheduled j hj, if_pos hj, Vector.getElem_map]
  · intro w_eq j hj
    simp only [w_eq, Vector.getElem_map, if_pos hj]

/-- From word `n` on, the SCHEXP steps that are left complete the schedule (R146, R147). -/
theorem runSteps_completes_schedule (d : Nat) (no_input : s.inputs = []) (phase : s.phase = Phase.schexp.code)
    (t_eq : s.t = some n) (low : 16 ≤ n) (left : n + d = 63) (scheduled : s.Scheduled b n) :
    runSteps (d + 1) s = .next { s with w := (schedule b).map some, t := some 63, phase := Phase.winit.code } := by
  induction d generalizing s n with
  | zero =>
    obtain rfl : n = 63 := left
    have next := step_of_exec no_input phase rfl (execSchexp_of_word phase t_eq (scheduled.expandWord low le_rfl))
    rw [← State.scheduled_all_iff.1 (scheduled.write le_rfl rfl)]
    exact runSteps_one next
  | succ d ih =>
    have next := step_of_exec no_input phase rfl (execSchexp_of_word phase t_eq (scheduled.expandWord low (by omega)))
    rw [if_neg (by omega), if_neg (by omega)] at next
    rw [runSteps_succ next]
    exact ih no_input rfl rfl (by omega) (by omega) (scheduled.write (by omega) rfl)

/-- From round `n` on, the ROUND steps that are left complete the 64 rounds (R153). -/
theorem runSteps_completes_rounds (d : Nat) (no_input : s.inputs = []) (phase : s.phase = Phase.round.code)
    (t_eq : s.t = some n) (left : n + d = 63) (scheduled : s.Scheduled b 64) (work : s.work = some (roundsFrom h b n)) :
    runSteps (d + 1) s = .next { s with work := some (roundsFrom h b 64), t := some 63, phase := Phase.update.code } := by
  induction d generalizing s n with
  | zero =>
    obtain rfl : n = 63 := left
    have next := step_of_exec no_input phase rfl
      (execRound_of_operands phase t_eq work (by decide) (scheduled.readW (by decide) (by decide)))
    rw [← roundsFrom_succ h b 63 (by decide)] at next
    exact runSteps_one next
  | succ d ih =>
    have bound : n < 64 := by omega
    have next := step_of_exec no_input phase rfl
      (execRound_of_operands phase t_eq work bound (scheduled.readW bound bound))
    rw [← roundsFrom_succ h b n bound, if_neg (by omega), if_neg (by omega)] at next
    rw [runSteps_succ next]
    exact ih no_input rfl rfl (by omega) (scheduled.congr rfl) rfl

/-- SCHLD and the 48 SCHEXP steps write the whole schedule of block `k` (R144, R147). -/
theorem runSteps_writes_schedule (no_input : s.inputs = []) (phase : s.phase = Phase.schld.code) (i_eq : s.i = some k)
    (block : s.readBlk k = .ok b) :
    runSteps (1 + 48) s = .next { s with w := (schedule b).map some, t := some 63, phase := Phase.winit.code } := by
  have block_loaded := step_of_exec no_input phase rfl (execSchld_of_block phase i_eq block)
  exact runSteps_trans (runSteps_one block_loaded)
    (runSteps_completes_schedule 47 no_input rfl rfl le_rfl rfl (State.scheduled_load rfl))

/-- WINIT and the 64 ROUND steps put the block through all its rounds (R150, R153). -/
theorem runSteps_does_all_rounds (no_input : s.inputs = []) (phase : s.phase = Phase.winit.code) (h_eq : s.h = some h)
    (scheduled : s.Scheduled b 64) :
    runSteps (1 + 64) s = .next
      { s with work := some (roundsFrom h b 64), t := some 63, phase := Phase.update.code } := by
  have registers_loaded := step_of_exec no_input phase rfl (execWinit_of_digest phase h_eq)
  rw [← roundsFrom_zero h b] at registers_loaded
  exact runSteps_trans (runSteps_one registers_loaded)
    (runSteps_completes_rounds 63 no_input rfl rfl rfl (scheduled.congr rfl) rfl)

/-- The state after the 115 steps of block `k`: schedule, rounds, UPDATE (R157). -/
theorem runSteps_compresses_block (no_input : s.inputs = []) (phase : s.phase = Phase.schld.code) (i_eq : s.i = some k)
    (block : s.readBlk k = .ok b) (nblk : s.nblk = some blocks) (h_eq : s.h = some h) :
    runSteps 115 s = .next
      { s with
        w := (schedule b).map some
        work := some (roundsFrom h b 64)
        t := some 63
        h := some (compress h b)
        i := some (k + 1)
        phase := if k + 1 = blocks then Phase.serialize.code else Phase.schld.code } := by
  have schedule_written := runSteps_writes_schedule no_input phase i_eq block
  have rounds_done := runSteps_does_all_rounds (h := h) (b := b)
    (s := { s with w := (schedule b).map some, t := some 63, phase := Phase.winit.code })
    no_input rfl h_eq (State.scheduled_all_iff.2 rfl)
  rw [compress_eq]
  refine runSteps_trans (runSteps_trans schedule_written rounds_done) (runSteps_one ?_)
  exact step_of_exec (p := .update) no_input rfl rfl (execUpdate_of_operands rfl h_eq rfl i_eq nblk)

end

/-- Settles O56: by the whole state after the block's 115 steps. -/
theorem oneBlockIsCompressedIn115Steps : Obligations.OneBlockIsCompressedIn115Steps := by
  intro s k blocks b h no_input phase i_eq blk nblk block h_eq
  have read := State.readBlk_eq_ok.2 ⟨blocks, blk, block⟩
  exact ⟨_, runSteps_compresses_block no_input phase i_eq read nblk h_eq, rfl, rfl, rfl, rfl⟩

end Sys2Proof.Machine
end

section
/-! Whose turn it is while HOST waits (R172), the next-phase table (R171), and how a call ends: TAKE, then DISCARD (R173,
R176, R177), for a refused call right after CREATE (R195). -/

namespace Sys2Proof.Machine

/-! ### CORE's turn while HOST waits (R172, log 1, log 20) -/

section
variable {s : State} {length : BitVec 64} {rest : List Input}

theorem nextMove_of_noCommand (h : s.inputs = .command 0b00#2 length :: rest) :
    nextMove s = coreMove { s with inputs := rest } := by
  simp only [nextMove, h, decodeCommand_noCommand]

theorem step_of_coreMove {u : State} {i : Instr} (move : nextMove s = coreMove u)
    (selects : decodePhase u.phase = .ok i) : step s = exec i u := by
  rw [step, move, coreMove_of_decode selects]

end

/-- Settles O6: a command that is not enabled and the transaction without a command both leave the move to CORE. -/
theorem coreHasTheTurnWhileHostWaits : Obligations.CoreHasTheTurnWhileHostWaits := by
  refine ⟨fun s cmd length rest i j waiting decoded disabled selects => step_of_coreMove ?_ selects,
    fun s length rest j waiting selects => step_of_coreMove (nextMove_of_noCommand waiting) selects⟩
  rw [nextMove_of_command waiting decoded, if_neg (Bool.not_eq_true _ ▸ disabled)]

/-! ### Waiting (R170, R171, R176, log 7) -/

section
variable {s : State} {f : Bool}

theorem State.takeEnabled_eq_false :
    s.takeEnabled = false ↔ s.takeq = true ∨ (s.phase ≠ Phase.done.code ∧ s.phase ≠ Phase.fault.code) := by
  rw [← Bool.not_eq_true, State.takeEnabled_eq_true, not_and_or, not_or, Bool.not_eq_false]

theorem State.discardEnabled_of_takeq (h : s.takeq = false) : s.discardEnabled f = false := by
  rw [State.discardEnabled, h, Bool.false_and]

/-- DISCARD waits for TAKE (R177). -/
theorem execDiscard_of_takeq (h : s.takeq = false) : execDiscard f s = .next s :=
  execDiscard_eq_next.2 (.inr ⟨State.discardEnabled_of_takeq h, rfl⟩)

end

/-- Settles O11: each of the four operations answers the state it was given where it is not enabled. -/
theorem waitingChangesNothing : Obligations.WaitingChangesNothing :=
  ⟨fun _ _ empty => execCreate_eq_next.2 (.inr ⟨.inr empty, rfl⟩),
    fun _ _ untaken => execDiscard_of_takeq untaken,
    fun _ _ untaken => execDiscard_of_takeq untaken,
    fun _ _ full => execHash_eq_next.2 (.inr ⟨full, rfl⟩),
    fun _ waits => execTake_eq_next.2 (.inr ⟨State.takeEnabled_eq_false.2 waits, rfl⟩)⟩

/-! ### The next-phase table (R171) -/

/-- The moves of the next-phase table. -/
def nextPhases : List (Phase × Phase) :=
  [(.idle, .pad), (.idle, .fault), (.pad, .parse), (.parse, .hinit), (.hinit, .schld), (.schld, .schexp),
   (.schexp, .winit), (.winit, .round), (.round, .update), (.update, .schld), (.update, .serialize),
   (.serialize, .done), (.done, .idle), (.fault, .idle)]

/-- From `s` to `t` the phase stays, or moves along a row of the table. -/
def PhaseFollowsTable (s t : State) : Prop :=
  t.phase = s.phase ∨ ∃ p q, (p, q) ∈ nextPhases ∧ s.phase = p.code ∧ t.phase = q.code

theorem PhaseFollowsTable.of_row {s t : State} {p q : Phase} (row : (p, q) ∈ nextPhases) (old : s.phase = p.code)
    (new : t.phase = q.code) : PhaseFollowsTable s t :=
  .inr ⟨p, q, row, old, new⟩

/-- Whatever operation completes, the phase follows the table. -/
theorem exec_phaseFollowsTable {i : Instr} {s t : State} (next : exec i s = .next t) : PhaseFollowsTable s t := by
  cases i with
  | hash n => exact .inl (by rw [execHash_frame next])
  | take => exact .inl (by rw [execTake_frame next])
  | create =>
    rcases execCreate_eq_next.1 next with ⟨phase, r, -, accepted⟩ | ⟨-, rfl⟩
    · rcases State.accept_eq_ok.1 accepted with ⟨-, rfl⟩ | ⟨-, -, rfl⟩ | ⟨-, m, -, rfl⟩
      · exact .of_row (q := .fault) (by decide) phase rfl
      · exact .of_row (q := .fault) (by decide) phase rfl
      · exact .of_row (q := .pad) (by decide) phase rfl
    · exact .inl rfl
  | pad =>
    rcases execPad_eq_next.1 next with ⟨phase, n, m, l, -, -, -, rfl⟩ | ⟨-, rfl⟩
    · exact .of_row (q := .parse) (by decide) phase rfl
    · exact .inl rfl
  | parse =>
    rcases execParse_eq_next.1 next with ⟨phase, p, -, rfl⟩ | ⟨-, rfl⟩
    · exact .of_row (q := .hinit) (by decide) phase rfl
    · exact .inl rfl
  | hinit =>
    rcases execHinit_eq_next.1 next with ⟨phase, rfl⟩ | ⟨-, rfl⟩
    · exact .of_row (q := .schld) (by decide) phase rfl
    · exact .inl rfl
  | schld =>
    rcases execSchld_eq_next.1 next with ⟨phase, k, b, -, -, rfl⟩ | ⟨-, rfl⟩
    · exact .of_row (q := .schexp) (by decide) phase rfl
    · exact .inl rfl
  | schexp =>
    rcases execSchexp_eq_next.1 next with ⟨phase, n, x, -, -, rfl⟩ | ⟨-, rfl⟩
    · split_ifs
      · exact .of_row (q := .winit) (by decide) phase rfl
      · exact .inl rfl
    · exact .inl rfl
  | winit =>
    rcases execWinit_eq_next.1 next with ⟨phase, h, -, rfl⟩ | ⟨-, rfl⟩
    · exact .of_row (q := .round) (by decide) phase rfl
    · exact .inl rfl
  | round =>
    rcases execRound_eq_next.1 next with ⟨phase, n, r, k, w, -, -, -, -, rfl⟩ | ⟨-, rfl⟩
    · split_ifs
      · exact .of_row (q := .update) (by decide) phase rfl
      · exact .inl rfl
    · exact .inl rfl
  | update =>
    rcases execUpdate_eq_next.1 next with ⟨phase, h, r, k, blocks, -, -, -, -, rfl⟩ | ⟨-, rfl⟩
    · split_ifs
      · exact .of_row (q := .serialize) (by decide) phase rfl
      · exact .of_row (q := .schld) (by decide) phase rfl
    · exact .inl rfl
  | serialize =>
    rcases execSerialize_eq_next.1 next with ⟨phase, h, -, rfl⟩ | ⟨-, rfl⟩
    · exact .of_row (q := .done) (by decide) phase rfl
    · exact .inl rfl
  | discard f =>
    rcases execDiscard_eq_next.1 next with ⟨enabled, rfl⟩ | ⟨-, rfl⟩
    · rw [State.discardEnabled, Bool.and_eq_true, State.inPhase_eq_true] at enabled
      cases f with
      | false => exact .of_row (q := .idle) (by decide) enabled.2 rfl
      | true => exact .of_row (q := .idle) (by decide) enabled.2 rfl
    · exact .inl rfl

/-- Settles O12: the fourteen moves are the rows of `nextPhases` in the codes of R84. -/
theorem phasesFollowTheNextPhaseTable : Obligations.PhasesFollowTheNextPhaseTable := by
  intro i s t next
  refine (exec_phaseFollowsTable next).imp_right fun ⟨p, q, row, old, new⟩ => ?_
  rw [old, new]
  exact List.mem_map_of_mem (f := Prod.map Phase.code Phase.code) row

/-! ### TAKE and DISCARD (R176, R177) -/

/-- Where TAKE is enabled HOST keeps the result (R176). -/
theorem execTake_of_result {s : State} {r : TakeResult} (enabled : s.takeEnabled = true)
    (result : s.takeResult = .ok r) : execTake s = .next { s with results := s.results ++ [r], takeq := true } :=
  execTake_eq_next.2 (.inl ⟨enabled, r, result, rfl⟩)

theorem State.takeResult_of_fault {s : State} (fault : s.phase = Phase.fault.code) :
    s.takeResult = .ok (.error s.errcode) :=
  State.takeResult_eq_ok.2 (.inr ⟨by rw [fault]; decide, rfl⟩)

/-- Settles O14: TAKE is enabled in DONE and in FAULT, and hands over the outputs or the error code. -/
theorem takeHandsOverTheResult : Obligations.TakeHandsOverTheResult :=
  ⟨fun _ text bytes untaken done hex digestb =>
      execTake_of_result (State.takeEnabled_eq_true.2 ⟨untaken, .inl done⟩)
        (State.takeResult_eq_ok.2 (.inl ⟨done, text, bytes, hex, digestb, rfl⟩)),
    fun _ untaken fault =>
      execTake_of_result (State.takeEnabled_eq_true.2 ⟨untaken, .inr fault⟩) (State.takeResult_of_fault fault),
    fun _ => State.takeEnabled_eq_true⟩

/-- Settles O15: DISCARD is enabled, and its effect is reset's but for REQ. -/
theorem discardEndsTheCall : Obligations.DiscardEndsTheCall := by
  intro f s taken phase
  have enabled : s.discardEnabled f = true := by
    rw [State.discardEnabled, taken, Bool.true_and, State.inPhase_eq_true, phase]
    cases f <;> rfl
  exact execDiscard_eq_next.2 (.inl ⟨enabled, rfl⟩)

/-- With HOST's TAKE waiting in DONE or FAULT and no request held, TAKE and DISCARD end the call in the reset state, HOST
keeping the result (R173, R178). -/
theorem runSteps_take_discard {s : State} {r : TakeResult} (f : Bool)
    (waiting : s.inputs = [.command 0b10#2 0#64]) (phase : s.phase = if f then 0b1011#4 else 0b1010#4)
    (untaken : s.takeq = false) (empty : s.req = none) (result : s.takeResult = .ok r) :
    runSteps 2 s = .next { State.reset with msg := s.msg, msgCap := s.msgCap, results := s.results ++ [r] } := by
  have enabled : s.takeEnabled = true := by
    refine State.takeEnabled_eq_true.2 ⟨untaken, ?_⟩
    cases f with
    | false => exact .inl phase
    | true => exact .inr phase
  have selects : decodePhase s.phase = .ok (.discard f) := by
    rw [phase]
    cases f <;> rfl
  have take : step s = .next { s with inputs := [], results := s.results ++ [r], takeq := true } :=
    (stepRunsTheDecodedOperation.2 s _ _ _ .take waiting rfl enabled).trans (execTake_of_result enabled result)
  have discard := (stepRunsTheDecodedOperation.1
      { s with inputs := [], results := s.results ++ [r], takeq := true } _ rfl selects).trans
    (discardEndsTheCall f _ rfl phase)
  rw [runSteps_succ take, runSteps_one discard, empty]
  rfl

/-! ### A refused call (R190 to R195) -/

/-- CREATE refuses a request above MSG_CAP with the code of its first failing check (R190). -/
theorem State.accept_of_too_long {s : State} {r : Request} (too_long : s.msgCap.val < r.length.toNat) :
    s.accept r = .ok (s.raiseFault (if r.length.toNat ≤ Config.maxMsgBytes then errCapacity else errLenOverflow)) := by
  refine State.accept_eq_ok.2 ?_
  split_ifs with counted
  · exact .inr (.inl ⟨counted, too_long, rfl⟩)
  · exact .inl ⟨not_le.1 counted, rfl⟩

/-- Settles O60: CORE's CREATE raises the fault while TAKE waits, and TAKE and DISCARD end the call. -/
theorem refusedCallEndsWithItsError : Obligations.RefusedCallEndsWithItsError := by
  intro s r waiting idle untaken pending too_long
  have disabled : s.takeEnabled = false :=
    State.takeEnabled_eq_false.2 (.inr (by rw [idle]; decide))
  have create := (coreHasTheTurnWhileHostWaits.1 s _ _ _ .take .create waiting rfl disabled (by rw [idle]; rfl)).trans
    (execCreate_eq_next.2 (.inl ⟨idle, r, pending, State.accept_of_too_long too_long⟩))
  exact runSteps_trans (runSteps_one create)
    (runSteps_take_discard true waiting rfl untaken rfl (State.takeResult_of_fault rfl))

end Sys2Proof.Machine
end

section
/-! A whole call: preprocessing, the blocks one after the other, and the outputs (R157, R173, R182, R183); the same call
while HOST's TAKE waits (R176). -/

namespace Sys2Proof.Machine

/-! ### The states of a call -/

/-- The state after the compression of the first `k` blocks, in phase `p`, with what the last of them left in the schedule
and the working registers (R157). -/
def State.compressedTo (s : State) (blocks : List Block) (k : Nat) (p : Phase) (w : Vector (Option Word) 64)
    (work : Option Working) : State :=
  { s with w := w, work := work, t := some 63, h := some (digestAfter blocks k), i := some k, phase := p.code }

section
variable (s : State) (m : List Byte) (w : Vector (Option Word) 64) (work : Option Working)

/-- The state in SCHLD of the call on `m` from `s`: PRE and HINIT are done. -/
def State.preprocessed : State :=
  { s with
    req := none, n := some m.length, mbuf := some m, l := some (bitLength m.length)
    z := some (zeroFill m.length), pbuf := some (padMessage m)
    nblk := some (padAndParse m).length, blk := some (padAndParse m)
    h := some (digestAfter (padAndParse m) 0), i := some 0, phase := Phase.schld.code }

/-- The state in SERIALIZE of that call, with what the last block left in the schedule and the working registers. -/
def State.hashed : State :=
  (s.preprocessed m).compressedTo (padAndParse m) (padAndParse m).length .serialize w work

/-- The state in DONE of that call. -/
def State.answered : State :=
  { s.hashed m w work with
    digestb := some (computeDigest (padAndParse m)), hex := some (hashText m), phase := Phase.done.code }

end

/-! ### The call without HOST (R157, R182) -/

section
variable {s : State} {m : List Byte}

/-- CREATE, PAD, PARSE and HINIT. -/
theorem runSteps_preprocesses {r : Request} (no_input : s.inputs = []) (idle : s.phase = Phase.idle.code)
    (admits : s.Admits r m) : runSteps 4 s = .next (s.preprocessed m) := by
  obtain ⟨created, copied, -⟩ := createCopiesTheMessage s r m idle admits
  rw [← copied] at created
  have create := step_of_exec no_input idle rfl created
  refine (runSteps_succ create).trans ?_
  refine Eq.trans (runSteps_succ (step_of_exec (p := .pad) no_input rfl rfl
    (execPad_eq_next.2 (.inl ⟨rfl, _, _, _, rfl, rfl, rfl, rfl⟩)))) ?_
  refine Eq.trans (runSteps_succ (step_of_exec (p := .parse) no_input rfl rfl
    (execParse_eq_next.2 (.inl ⟨rfl, _, rfl, rfl⟩)))) ?_
  refine Eq.trans (runSteps_succ (step_of_exec (p := .hinit) no_input rfl rfl
    (execHinit_eq_next.2 (.inl ⟨rfl, rfl⟩)))) ?_
  rw [runSteps_zero, State.preprocessed, digestAfter_zero, padAndParse, parseBlocks_length]
  rfl

section
variable {blocks : List Block} {k : Nat}

/-- The 115 steps of block `k`, where the digest is that of the blocks before it. -/
theorem runSteps_compresses_next_block (no_input : s.inputs = []) (phase : s.phase = Phase.schld.code)
    (i_eq : s.i = some k) (blk : s.blk = some blocks) (nblk : s.nblk = some blocks.length)
    (h_eq : s.h = some (digestAfter blocks k)) (left : k < blocks.length) :
    ∃ w work, runSteps 115 s = .next
      (s.compressedTo blocks (k + 1) (if k + 1 = blocks.length then .serialize else .schld) w work) := by
  have block := List.getElem?_eq_getElem left
  have compressed := runSteps_compresses_block no_input phase i_eq (State.readBlk_eq_ok.2 ⟨blocks, blk, block⟩) nblk h_eq
  rw [← digestAfter_succ blocks k _ block, ← apply_ite Phase.code] at compressed
  exact ⟨_, _, compressed⟩

/-- From block `k` on, the blocks that are left complete the digest (R157). -/
theorem runSteps_completes_blocks (d : Nat) (no_input : s.inputs = []) (phase : s.phase = Phase.schld.code)
    (i_eq : s.i = some k) (blk : s.blk = some blocks) (nblk : s.nblk = some blocks.length)
    (h_eq : s.h = some (digestAfter blocks k)) (left : k + (d + 1) = blocks.length) :
    ∃ w work, runSteps (115 * (d + 1)) s = .next (s.compressedTo blocks blocks.length .serialize w work) := by
  induction d generalizing s k with
  | zero =>
    obtain ⟨w, work, compressed⟩ := runSteps_compresses_next_block no_input phase i_eq blk nblk h_eq (by omega)
    rw [if_pos left, left] at compressed
    exact ⟨w, work, compressed⟩
  | succ d ih =>
    obtain ⟨w, work, compressed⟩ := runSteps_compresses_next_block no_input phase i_eq blk nblk h_eq (by omega)
    rw [if_neg (by omega)] at compressed
    obtain ⟨w', work', completed⟩ := ih (s := s.compressedTo blocks (k + 1) .schld w work)
      no_input rfl rfl blk nblk rfl (by omega)
    rw [Nat.mul_add_one, Nat.add_comm]
    exact ⟨w', work', runSteps_trans compressed completed⟩

end

/-- CORE's whole way to SERIALIZE: `115*N + 4` steps (R173). -/
theorem runSteps_hashes {r : Request} (no_input : s.inputs = []) (idle : s.phase = Phase.idle.code)
    (admits : s.Admits r m) :
    ∃ w work, runSteps (115 * blockCount m.length + 4) s = .next (s.hashed m w work) := by
  obtain ⟨d, blocks_eq⟩ : ∃ d, blockCount m.length = d + 1 := ⟨(m.length + 8) / 64, rfl⟩
  obtain ⟨w, work, completed⟩ := runSteps_completes_blocks (s := s.preprocessed m) d no_input rfl rfl rfl rfl rfl
    (by rw [blockCount_eq, blocks_eq, Nat.zero_add])
  rw [blocks_eq, Nat.add_comm]
  exact ⟨w, work, runSteps_trans (runSteps_preprocesses no_input idle admits) completed⟩

theorem step_serializes (no_input : s.inputs = []) (w : Vector (Option Word) 64) (work : Option Working) :
    step (s.hashed m w work) = .next (s.answered m w work) := by
  rw [State.answered, hashText, computeDigest]
  exact step_of_exec (p := .serialize) no_input rfl rfl
    (execSerialize_eq_next.2 (.inl ⟨rfl, digestAfter (padAndParse m) (padAndParse m).length, rfl, rfl⟩))

/-- CORE's whole way to DONE: `115*N + 5` steps (R173, R182). -/
theorem runSteps_answers {r : Request} (no_input : s.inputs = []) (idle : s.phase = Phase.idle.code)
    (admits : s.Admits r m) :
    ∃ w work, runSteps (115 * blockCount m.length + 5) s = .next (s.answered m w work) := by
  obtain ⟨w, work, hashed⟩ := runSteps_hashes no_input idle admits
  have answered := runSteps_trans hashed (runSteps_one (step_serializes no_input w work))
  exact ⟨w, work, answered⟩

end

/-- Settles O57: the state after the call, element by element. -/
theorem callComputesTheHash : Obligations.CallComputesTheHash := by
  intro s r m no_input idle admits
  obtain ⟨w, work, answered⟩ := runSteps_answers no_input idle admits
  exact ⟨s.answered m w work, answered, rfl, rfl, rfl, rfl, rfl, rfl, rfl⟩

/-- Settles O59: from both states CORE takes the `115*N + 5` steps of the message to its outputs. -/
theorem resultDependsOnTheMessageOnly : Obligations.ResultDependsOnTheMessageOnly := by
  intro s s' r r' m no_input no_input' idle idle' admits admits'
  obtain ⟨t, run, done, digestb, hex, -⟩ := callComputesTheHash s r m no_input idle admits
  obtain ⟨t', run', done', digestb', hex', -⟩ := callComputesTheHash s' r' m no_input' idle' admits'
  exact ⟨_, t, t', run, run', done, done', hex ▸ nofun, hex.trans hex'.symm, digestb.trans digestb'.symm⟩

/-! ### The call while HOST's TAKE waits (R172, R176) -/

section
variable {s t : State} {inputs : List Input} {i : Instr}

/-- The state with other inputs to come. -/
def State.withInputs (s : State) (inputs : List Input) : State := { s with inputs := inputs }

/-- HOST's TAKE is the one input. -/
def State.withTake (s : State) : State := s.withInputs [.command 0b10#2 0#64]

theorem State.withTake_of_inputs (waiting : s.inputs = [.command 0b10#2 0#64]) : (s.withInputs []).withTake = s := by
  rw [State.withTake, ← waiting]
  rfl

theorem whenEnabled_withInputs {e : Bool} {act act' : Except Fault State}
    (h : act' = (·.withInputs inputs) <$> act) :
    whenEnabled e (s.withInputs inputs) act' = mapNext (·.withInputs inputs) (whenEnabled e s act) := by
  subst h
  cases e with
  | false => rfl
  | true => cases act <;> rfl

theorem State.accept_withInputs (r : Request) :
    (s.withInputs inputs).accept r = (·.withInputs inputs) <$> s.accept r := by
  simp only [State.accept, apply_ite (Functor.map fun t : State => t.withInputs inputs), map_bind]
  rfl

theorem execCreate_withInputs :
    execCreate (s.withInputs inputs) = mapNext (·.withInputs inputs) (execCreate s) := by
  have req : (s.withInputs inputs).req = s.req := rfl
  unfold execCreate
  rw [req]
  cases s.req with
  | none => rfl
  | some r => exact whenEnabled_withInputs (State.accept_withInputs r)

/-- No operation reads or writes what HOST and the platform do next. -/
theorem exec_withInputs : exec i (s.withInputs inputs) = mapNext (·.withInputs inputs) (exec i s) := by
  cases i with
  | hash n => exact whenEnabled_withInputs rfl
  | take => exact whenEnabled_withInputs (by rw [map_bind]; rfl)
  | create => exact execCreate_withInputs
  | pad => exact whenEnabled_withInputs (by simp only [map_bind]; rfl)
  | parse => exact whenEnabled_withInputs (by rw [map_bind]; rfl)
  | hinit => exact whenEnabled_withInputs rfl
  | schld => exact whenEnabled_withInputs (by simp only [map_bind]; rfl)
  | schexp => exact whenEnabled_withInputs (by simp only [map_bind, Except.map_ok, apply_ite]; rfl)
  | winit => exact whenEnabled_withInputs (by rw [map_bind]; rfl)
  | round => exact whenEnabled_withInputs (by simp only [map_bind, Except.map_ok, apply_ite]; rfl)
  | update => exact whenEnabled_withInputs (by simp only [map_bind]; rfl)
  | serialize => exact whenEnabled_withInputs (by rw [map_bind]; rfl)
  | discard f => exact whenEnabled_withInputs rfl

/-- While TAKE is not enabled it waits at the port, and CORE steps as it does alone (R172). -/
theorem step_withTake (no_input : s.inputs = []) (disabled : s.takeEnabled = false) :
    step s.withTake = mapNext State.withTake (step s) := by
  have core_turn : nextMove s.withTake = coreMove s.withTake :=
    (nextMove_of_command rfl (decodeCommand_take _)).trans (if_neg (Bool.not_eq_true _ ▸ disabled))
  have phase : s.withTake.phase = s.phase := rfl
  rw [step, step, core_turn, nextMove_of_no_input no_input, coreMove, coreMove, phase]
  cases decodePhase s.phase with
  | ok i => exact exec_withInputs
  | error e => rfl

/-- Only TAKE fills TAKEQ (R176). -/
theorem exec_keeps_untaken (next : exec i s = .next t) (not_take : i ≠ .take) (untaken : s.takeq = false) :
    t.takeq = false := by
  cases i with
  | hash n => rw [execHash_frame next]; exact untaken
  | take => exact absurd rfl not_take
  | create => rw [execCreate_frame next]; exact untaken
  | pad => rw [execPad_frame next]; exact untaken
  | parse => rw [execParse_frame next]; exact untaken
  | hinit => rw [execHinit_frame next]; exact untaken
  | schld => rw [execSchld_frame next]; exact untaken
  | schexp => rw [execSchexp_frame next]; exact untaken
  | winit => rw [execWinit_frame next]; exact untaken
  | round => rw [execRound_frame next]; exact untaken
  | update => rw [execUpdate_frame next]; exact untaken
  | serialize => rw [execSerialize_frame next]; exact untaken
  | discard f =>
    rcases execDiscard_eq_next.1 next with ⟨-, rfl⟩ | ⟨-, rfl⟩
    · rfl
    · exact untaken

/-- CORE's step brings no input and no TAKE. -/
theorem step_keeps_alone (no_input : s.inputs = []) (untaken : s.takeq = false) (next : step s = .next t) :
    t.inputs = [] ∧ t.takeq = false := by
  rw [step, nextMove_of_no_input no_input] at next
  cases decoded : decodePhase s.phase with
  | error e =>
    rw [coreMove, decoded] at next
    cases next
  | ok i =>
    rw [coreMove_of_decode decoded] at next
    have not_take : i ≠ .take := by
      rintro rfl
      cases (encode_of_decodePhase decoded).2
    obtain ⟨-, -, inputs, -⟩ := operationsNeverWriteHostSpace i s t next
    exact ⟨inputs.trans no_input, exec_keeps_untaken next not_take untaken⟩

/-- CORE alone stays where TAKE is enabled: DISCARD waits for it (R177). -/
theorem step_of_takeEnabled (no_input : s.inputs = []) (enabled : s.takeEnabled = true) : step s = .next s := by
  obtain ⟨untaken, done | fault⟩ := State.takeEnabled_eq_true.1 enabled
  · exact step_of_exec no_input done rfl (execDiscard_of_takeq untaken)
  · exact step_of_exec no_input fault rfl (execDiscard_of_takeq untaken)

theorem runSteps_of_step_self (stays : step s = .next s) (k : Nat) : runSteps k s = .next s := by
  induction k with
  | zero => rfl
  | succ k ih => rw [runSteps_succ stays, ih]

/-- A run of CORE alone to a state where TAKE is not enabled is the same run while TAKE waits: no state on the way enables
TAKE, because CORE alone would not have left it. -/
theorem runSteps_withTake {k : Nat} (no_input : s.inputs = []) (untaken : s.takeq = false)
    (run : runSteps k s = .next t) (disabled : t.takeEnabled = false) :
    runSteps k s.withTake = .next t.withTake := by
  induction k generalizing s with
  | zero =>
    cases run
    rfl
  | succ k ih =>
    cases enabled : s.takeEnabled with
    | true =>
      cases (runSteps_of_step_self (step_of_takeEnabled no_input enabled) (k + 1)).symm.trans run
      cases enabled.symm.trans disabled
    | false =>
      have waits := step_withTake no_input enabled
      cases next : step s with
      | next u =>
        obtain ⟨no_input', untaken'⟩ := step_keeps_alone no_input untaken next
        rw [next] at waits
        rw [runSteps_succ next] at run
        exact (runSteps_succ waits).trans (ih no_input' untaken' run)
      | fault f =>
        rw [runSteps, next] at run
        cases run
      | refused r =>
        rw [runSteps, next] at run
        cases run

end

theorem serialize_code_not_done_nor_fault :
    Phase.serialize.code ≠ Phase.done.code ∧ Phase.serialize.code ≠ Phase.fault.code := by decide

/-- Settles O58: the call of CORE alone to SERIALIZE and its last step while TAKE waits, then TAKE and DISCARD. -/
theorem callHandsOverTheHashAndEnds : Obligations.CallHandsOverTheHashAndEnds := by
  intro s r m waiting idle untaken admits
  obtain ⟨w, work, hashed⟩ := runSteps_hashes (s := s.withInputs []) rfl idle
    ⟨admits.req, admits.fits, admits.message⟩
  have disabled : ((s.withInputs []).hashed m w work).takeEnabled = false :=
    State.takeEnabled_eq_false.2 (.inr serialize_code_not_done_nor_fault)
  have hashed_waiting := runSteps_withTake (s := s.withInputs []) rfl untaken hashed disabled
  have answered := step_withTake rfl disabled
  rw [step_serializes rfl] at answered
  have ended := runSteps_take_discard (s := ((s.withInputs []).answered m w work).withTake) false rfl rfl untaken rfl
    (State.takeResult_eq_ok.2 (.inl ⟨rfl, _, _, rfl, rfl, rfl⟩))
  rw [State.withTake_of_inputs waiting] at hashed_waiting
  exact (runSteps_add hashed_waiting).trans ((runSteps_succ answered).trans ended)

end Sys2Proof.Machine
end

section
/-! The exceptions (R190 to R197): CREATE's two length faults, that nothing else enters FAULT, and the model fault of a
reserved phase code. -/

namespace Sys2Proof.Machine

/-! ### CREATE's two faults (R191, R192, R194) -/

/-- Settles O18: the requests CREATE refuses, by its first failing check. -/
theorem createRaisesTheLengthFaults : Obligations.CreateRaisesTheLengthFaults := by
  refine ⟨fun s r idle pending overflows => ?_, fun s r idle pending counted too_long => ?_⟩
  · have uncounted : 2 ^ 61 - 1 < r.length.toNat := by omega
    exact execCreate_eq_next.2 (.inl ⟨idle, r, pending, State.accept_eq_ok.2 (.inl ⟨uncounted, rfl⟩)⟩)
  · exact execCreate_eq_next.2 (.inl ⟨idle, r, pending, State.accept_eq_ok.2 (.inr (.inl ⟨counted, too_long, rfl⟩))⟩)

/-! ### Who enters FAULT (R190) -/

/-- An operation is a host command or what some phase selects (R83). -/
theorem hostCommand_or_selected (i : Instr) :
    (∃ n, i = .hash n) ∨ i = .take ∨ ∃ p : Phase, decodePhase p.code = .ok i := by
  cases i with
  | hash n => exact .inl ⟨n, rfl⟩
  | take => exact .inr (.inl rfl)
  | create => exact .inr (.inr ⟨.idle, rfl⟩)
  | pad => exact .inr (.inr ⟨.pad, rfl⟩)
  | parse => exact .inr (.inr ⟨.parse, rfl⟩)
  | hinit => exact .inr (.inr ⟨.hinit, rfl⟩)
  | schld => exact .inr (.inr ⟨.schld, rfl⟩)
  | schexp => exact .inr (.inr ⟨.schexp, rfl⟩)
  | winit => exact .inr (.inr ⟨.winit, rfl⟩)
  | round => exact .inr (.inr ⟨.round, rfl⟩)
  | update => exact .inr (.inr ⟨.update, rfl⟩)
  | serialize => exact .inr (.inr ⟨.serialize, rfl⟩)
  | discard f =>
    cases f with
    | false => exact .inr (.inr ⟨.done, rfl⟩)
    | true => exact .inr (.inr ⟨.fault, rfl⟩)

section
variable {i : Instr} {s t : State}

/-- Only the operation the phase selects moves the phase: host commands keep it, and the others wait. -/
theorem decodePhase_of_exec_moves (next : exec i s = .next t) (moved : t.phase ≠ s.phase) :
    decodePhase s.phase = .ok i := by
  rcases hostCommand_or_selected i with ⟨n, rfl⟩ | rfl | ⟨p, selects⟩
  · exact absurd (by rw [execHash_frame next]) moved
  · exact absurd (by rw [execTake_frame next]) moved
  · by_contra not_selected
    have other : s.phase ≠ p.code := fun same => not_selected (same ▸ selects)
    cases (operationsWaitOutsideTheirPhase s p.code i selects other).symm.trans next
    exact moved rfl

/-- FAULT is entered from IDLE only (R171). -/
theorem idle_of_exec_enters_fault (next : exec i s = .next t) (fault : t.phase = Phase.fault.code)
    (moved : t.phase ≠ s.phase) : s.phase = Phase.idle.code := by
  obtain ⟨p, q, row, old, new⟩ := (exec_phaseFollowsTable next).resolve_left moved
  obtain rfl : q = .fault := Phase.code_inj.1 (new.symm.trans fault)
  obtain rfl : p = .idle := by simpa [nextPhases] using row
  exact old

end

/-- Settles O19: FAULT is entered from IDLE, which selects CREATE, and CREATE enters it by its two refusals only. -/
theorem onlyCreateRaisesFaults : Obligations.OnlyCreateRaisesFaults := by
  intro i s t next fault not_fault
  have moved : t.phase ≠ s.phase := fun same => not_fault (same ▸ fault)
  have selects := decodePhase_of_exec_moves next moved
  rw [idle_of_exec_enters_fault next fault moved] at selects
  cases (decodePhase_code .idle).symm.trans selects
  refine ⟨rfl, ?_⟩
  rcases execCreate_eq_next.1 next with ⟨-, r, pending, accepted⟩ | ⟨-, rfl⟩
  · rcases State.accept_eq_ok.1 accepted with ⟨uncounted, rfl⟩ | ⟨counted, too_long, rfl⟩ | ⟨-, m, -, rfl⟩
    · exact ⟨rfl, r, pending, .inl ⟨rfl, uncounted⟩⟩
    · exact ⟨rfl, r, pending, .inr ⟨rfl, counted, too_long⟩⟩
    · exact absurd fault (by decide : Phase.pad.code ≠ Phase.fault.code)
  · exact absurd rfl moved

/-! ### The model fault IllegalPhase (R197) -/

theorem coreMove_of_reserved {s : State} (reserved : 12 ≤ s.phase.toNat) :
    coreMove s = .stop (.illegalPhase s.phase) := by
  rw [coreMove, decodePhase_of_reserved reserved]

/-- Settles O7: a reserved code selects nothing, and in a good state CORE has an operation. -/
theorem illegalPhaseFaultsAndIsUnreachable : Obligations.IllegalPhaseFaultsAndIsUnreachable := by
  refine ⟨fun s no_input reserved => ?_, fun s inv => ?_⟩
  · rw [step, nextMove_of_no_input no_input, coreMove_of_reserved reserved]
  · by_contra legal
    obtain ⟨i, runs, -⟩ := inv.call.core_step
    cases (coreMove_of_reserved (not_lt.1 legal)).symm.trans runs

end Sys2Proof.Machine
end
